-- ==== Sys2Proof/Word.lean ====
section
/-! DEFINITION. The machine's one width: every register, memory cell, instruction word and ALU
operand is a 16-bit unsigned number (00_scope.md R5, R7). -/

namespace Sys2Proof

/-- A 16-bit cell or value. Its addition and subtraction are the spec's `wrap` of the exact sum and
difference (00_scope.md R7: every stored value is an unsigned integer in 0 to 0xFFFF). -/
abbrev Word := BitVec 16

end Sys2Proof
end

