-- ==== Sys2Proof/Machine/Flags.lean ====
section
/-! DEFINITION. The ALU: each result, each overflow value and each test as a function of the two operand
values, computed on exact integers and narrowed at the end (00_scope.md R7, 41_set_arith.md R107, D11). -/

namespace Sys2Proof.Machine

/-! ## ADD (41_set_arith.md R101) -/

/-- The exact sum modulo 65536. -/
def addResult (av bv : Word) : Word :=
  BitVec.ofNat 16 (av.toNat + bv.toNat)

/-- 1 if the exact sum exceeds 65535, else 0. -/
def addOverflow (av bv : Word) : Word :=
  if av.toNat + bv.toNat > 65535 then 1 else 0

/-! ## SUB (41_set_arith.md R102) -/

/-- The exact difference of the unsigned operands. -/
def difference (av bv : Word) : Int :=
  (av.toNat : Int) - (bv.toNat : Int)

/-- The exact difference modulo 65536, the non-negative residue. -/
def subResult (av bv : Word) : Word :=
  BitVec.ofInt 16 (difference av bv)

/-- 0xFFFF if the exact difference is negative, else 0. -/
def subOverflow (av bv : Word) : Word :=
  if difference av bv < 0 then 0xFFFF else 0

/-! ## MUL (41_set_arith.md R103) -/

/-- The exact product modulo 65536. -/
def mulResult (av bv : Word) : Word :=
  BitVec.ofNat 16 (av.toNat * bv.toNat)

/-- Bits 31 to 16 of the exact product. -/
def mulOverflow (av bv : Word) : Word :=
  BitVec.ofNat 16 ((av.toNat * bv.toNat) >>> 16)

/-! ## DIV and MOD (41_set_arith.md R104, R105) -/

/-- The floor of the quotient; 0 for a zero divisor. -/
def divResult (av bv : Word) : Word :=
  if bv = 0 then 0 else BitVec.ofNat 16 (av.toNat / bv.toNat)

/-- The first 16 bits of the quotient's fraction; 0 for a zero divisor. -/
def divOverflow (av bv : Word) : Word :=
  if bv = 0 then 0 else BitVec.ofNat 16 ((av.toNat * 65536) / bv.toNat)

/-- The remainder; 0 for a zero divisor. -/
def modResult (av bv : Word) : Word :=
  if bv = 0 then 0 else BitVec.ofNat 16 (av.toNat % bv.toNat)

/-! ## SHL and SHR (42_shift_logic.md R110, R111): the whole 16-bit count, unmasked -/

/-- The exact left shift modulo 65536. -/
def shlResult (av bv : Word) : Word :=
  BitVec.ofNat 16 (av.toNat <<< bv.toNat)

/-- Bits 31 to 16 of the exact left shift. -/
def shlOverflow (av bv : Word) : Word :=
  BitVec.ofNat 16 ((av.toNat <<< bv.toNat) >>> 16)

/-- The logical right shift. -/
def shrResult (av bv : Word) : Word :=
  BitVec.ofNat 16 (av.toNat >>> bv.toNat)

/-- The bits shifted out, as the low 16 bits of `(av * 65536) >> bv`. -/
def shrOverflow (av bv : Word) : Word :=
  BitVec.ofNat 16 ((av.toNat * 65536) >>> bv.toNat)

/-! ## The tests of the conditionals (43_conditional_skip.md R120 to R123) -/

/-- IFE: equal. -/
def testEqual (av bv : Word) : Bool :=
  av == bv

/-- IFN: different. -/
def testNotEqual (av bv : Word) : Bool :=
  av != bv

/-- IFG: a greater than b, both unsigned. -/
def testGreater (av bv : Word) : Bool :=
  decide (av.toNat > bv.toNat)

/-- IFB: at least one 1 bit in common. -/
def testBits (av bv : Word) : Bool :=
  (av &&& bv) != 0

end Sys2Proof.Machine
end

