-- ==== Sys2Proof/Syntax.lean ====
section
/-! DEFINITION. The instructions: registers, the operand codes by what they mean (30_encoding.md R54),
the two word formats (R51, R52) and one constructor of `Instr` for every row of opcode_table.json. -/

namespace Sys2Proof

/-- The eight general registers (10_state.md R11). -/
inductive Reg where
  | a | b | c | x | y | z | i | j
  deriving DecidableEq, Repr

/-- The twelve classes of operand code (30_encoding.md R54). An extra word is not part of the operand:
the resolver reads it from memory at PC (40_step_and_operands.md R72). -/
inductive Operand where
  /-- 0x00 to 0x07: register direct. -/
  | reg (r : Reg)
  /-- 0x08 to 0x0f: [register]. -/
  | regInd (r : Reg)
  /-- 0x10 to 0x17: [register + next word]. -/
  | regIdx (r : Reg)
  /-- 0x18: POP. -/
  | pop
  /-- 0x19: PEEK. -/
  | peek
  /-- 0x1a: PUSH. -/
  | push
  /-- 0x1b: SP direct. -/
  | sp
  /-- 0x1c: PC direct. -/
  | pc
  /-- 0x1d: O direct. -/
  | o
  /-- 0x1e: [next word]. -/
  | nextInd
  /-- 0x1f: next word (immediate literal). -/
  | nextLit
  /-- 0x20 to 0x3f: immediate literal, the value being the code less 0x20. -/
  | lit (v : BitVec 5)
  deriving DecidableEq, Repr

/-- The decoder's tagged result (30_encoding.md R52). A non-basic word has no operand b at all. -/
inductive Fields where
  /-- Basic form: opcode `o` (not 0), operand codes `a` and `b`. -/
  | basic (o : BitVec 4) (a b : BitVec 6)
  /-- Non-basic form: opcode `n`, operand code `a`. -/
  | nonBasic (n a : BitVec 6)
  deriving DecidableEq, Repr

/-- One constructor per row of opcode_table.json (30_encoding.md R56, R57, R58). -/
inductive Instr where
  | set (a b : Operand)
  | add (a b : Operand)
  | sub (a b : Operand)
  | mul (a b : Operand)
  | div (a b : Operand)
  | mod (a b : Operand)
  | shl (a b : Operand)
  | shr (a b : Operand)
  | and (a b : Operand)
  | bor (a b : Operand)
  | xor (a b : Operand)
  | ife (a b : Operand)
  | ifn (a b : Operand)
  | ifg (a b : Operand)
  | ifb (a b : Operand)
  | jsr (a : Operand)
  /-- A non-basic word whose opcode `n` is not 0x01 (44_jsr_nonbasic.md R132). -/
  | unrecognized (n : BitVec 6) (a : Operand)
  deriving DecidableEq, Repr

/-- The operands an instruction has, in the order they are resolved (40_step_and_operands.md R70). -/
def Instr.operands : Instr → List Operand
  | .set a b => [a, b]
  | .add a b => [a, b]
  | .sub a b => [a, b]
  | .mul a b => [a, b]
  | .div a b => [a, b]
  | .mod a b => [a, b]
  | .shl a b => [a, b]
  | .shr a b => [a, b]
  | .and a b => [a, b]
  | .bor a b => [a, b]
  | .xor a b => [a, b]
  | .ife a b => [a, b]
  | .ifn a b => [a, b]
  | .ifg a b => [a, b]
  | .ifb a b => [a, b]
  | .jsr a => [a]
  | .unrecognized _ a => [a]

end Sys2Proof
end

