-- ==== Sys2Proof/WellFormed.lean ====
section
/-! DEFINITION. Which terms stand for a word of the hardware (30_encoding.md R53, R58). -/

namespace Sys2Proof

/-- "`Basic` with `o = 0` is not a representable term" (30_encoding.md R53). -/
def Fields.wf : Fields → Bool
  | .basic o _ _ => o != 0
  | .nonBasic _ _ => true

/-- An unrecognized word has a non-basic opcode other than JSR's 0x01 (30_encoding.md R58). Every
other term is well formed: all 64 operand codes are defined and legal in every place (R54, R59). -/
def Instr.wf : Instr → Bool
  | .unrecognized n _ => n != 0x01
  | _ => true

end Sys2Proof
end

