-- ==== Sys2Proof/Decode.lean ====
section
/-! DEFINITION. Decoding and encoding one instruction word (30_encoding.md). Both are pure functions of
the word or term (R52, R61). No word is rejected: every 16-bit word decodes to something, the
unrecognized ones to `Instr.unrecognized` (R52, R58). -/

namespace Sys2Proof

/-! ## Registers and operand codes -/

/-- The register with number `n` (10_state.md R11, D3). -/
def Reg.ofNum (n : BitVec 3) : Reg :=
  match n.toNat with
  | 0 => .a
  | 1 => .b
  | 2 => .c
  | 3 => .x
  | 4 => .y
  | 5 => .z
  | 6 => .i
  | _ => .j

/-- The number of a register (10_state.md R11, D3). -/
def Reg.num : Reg → BitVec 3
  | .a => 0
  | .b => 1
  | .c => 2
  | .x => 3
  | .y => 4
  | .z => 5
  | .i => 6
  | .j => 7

/-- The operand code table of 30_encoding.md R54, read from code to meaning. The register of codes
0x00 to 0x17 has number `code mod 8`. -/
def Operand.ofCode (c : BitVec 6) : Operand :=
  if c.toNat < 0x08 then .reg (Reg.ofNum (c.extractLsb' 0 3))
  else if c.toNat < 0x10 then .regInd (Reg.ofNum (c.extractLsb' 0 3))
  else if c.toNat < 0x18 then .regIdx (Reg.ofNum (c.extractLsb' 0 3))
  else if c.toNat = 0x18 then .pop
  else if c.toNat = 0x19 then .peek
  else if c.toNat = 0x1a then .push
  else if c.toNat = 0x1b then .sp
  else if c.toNat = 0x1c then .pc
  else if c.toNat = 0x1d then .o
  else if c.toNat = 0x1e then .nextInd
  else if c.toNat = 0x1f then .nextLit
  else .lit (c.extractLsb' 0 5)

/-- The operand code table of 30_encoding.md R54, read from meaning to code. -/
def Operand.code : Operand → BitVec 6
  | .reg r => BitVec.ofNat 6 r.num.toNat
  | .regInd r => BitVec.ofNat 6 (0x08 + r.num.toNat)
  | .regIdx r => BitVec.ofNat 6 (0x10 + r.num.toNat)
  | .pop => 0x18
  | .peek => 0x19
  | .push => 0x1a
  | .sp => 0x1b
  | .pc => 0x1c
  | .o => 0x1d
  | .nextInd => 0x1e
  | .nextLit => 0x1f
  | .lit v => BitVec.ofNat 6 (0x20 + v.toNat)

/-! ## The decoder -/

/-- `decode(w)` of 30_encoding.md R52: the two formats of R51, told apart by the low four bits. -/
def fieldsOf (w : Word) : Fields :=
  if w.extractLsb' 0 4 = 0 then .nonBasic (w.extractLsb' 4 6) (w.extractLsb' 10 6)
  else .basic (w.extractLsb' 0 4) (w.extractLsb' 4 6) (w.extractLsb' 10 6)

/-- The non-basic opcode map (30_encoding.md R57, D2): 0x01 is JSR, the other 63 are unrecognized. -/
def nonBasicInstr (n : BitVec 6) (a : Operand) : Instr :=
  if n = 0x01 then .jsr a else .unrecognized n a

/-- The opcode map (30_encoding.md R56, D1, and R57, D2). The term `basic 0 a b`, which R53 calls not
representable and `fieldsOf` never gives, is read as the non-basic word that has those bits. -/
def instrOf : Fields → Instr
  | .nonBasic n a => nonBasicInstr n (.ofCode a)
  | .basic o a b =>
    match o.toNat with
    | 0x1 => .set (.ofCode a) (.ofCode b)
    | 0x2 => .add (.ofCode a) (.ofCode b)
    | 0x3 => .sub (.ofCode a) (.ofCode b)
    | 0x4 => .mul (.ofCode a) (.ofCode b)
    | 0x5 => .div (.ofCode a) (.ofCode b)
    | 0x6 => .mod (.ofCode a) (.ofCode b)
    | 0x7 => .shl (.ofCode a) (.ofCode b)
    | 0x8 => .shr (.ofCode a) (.ofCode b)
    | 0x9 => .and (.ofCode a) (.ofCode b)
    | 0xa => .bor (.ofCode a) (.ofCode b)
    | 0xb => .xor (.ofCode a) (.ofCode b)
    | 0xc => .ife (.ofCode a) (.ofCode b)
    | 0xd => .ifn (.ofCode a) (.ofCode b)
    | 0xe => .ifg (.ofCode a) (.ofCode b)
    | 0xf => .ifb (.ofCode a) (.ofCode b)
    | _ => nonBasicInstr a (.ofCode b)

/-- From an instruction word to its instruction; total on all 65536 words (30_encoding.md R52). -/
def decode (w : Word) : Instr :=
  instrOf (fieldsOf w)

/-! ## The encoder -/

/-- `encode` of 30_encoding.md R53: a basic word is `b * 1024 + a * 16 + o`, a non-basic word
`a * 1024 + n * 16`. -/
def wordOf : Fields → Word
  | .basic o a b => BitVec.ofNat 16 (b.toNat * 1024 + a.toNat * 16 + o.toNat)
  | .nonBasic n a => BitVec.ofNat 16 (a.toNat * 1024 + n.toNat * 16)

/-- The fields an instruction's word has (30_encoding.md R56, R57). -/
def Instr.fields : Instr → Fields
  | .set a b => .basic 0x1 a.code b.code
  | .add a b => .basic 0x2 a.code b.code
  | .sub a b => .basic 0x3 a.code b.code
  | .mul a b => .basic 0x4 a.code b.code
  | .div a b => .basic 0x5 a.code b.code
  | .mod a b => .basic 0x6 a.code b.code
  | .shl a b => .basic 0x7 a.code b.code
  | .shr a b => .basic 0x8 a.code b.code
  | .and a b => .basic 0x9 a.code b.code
  | .bor a b => .basic 0xa a.code b.code
  | .xor a b => .basic 0xb a.code b.code
  | .ife a b => .basic 0xc a.code b.code
  | .ifn a b => .basic 0xd a.code b.code
  | .ifg a b => .basic 0xe a.code b.code
  | .ifb a b => .basic 0xf a.code b.code
  | .jsr a => .nonBasic 0x01 a.code
  | .unrecognized n a => .nonBasic n a.code

/-- The instruction word of an instruction (30_encoding.md R53). The extra words that may follow it are
data the resolver reads, not part of the term (R60). -/
def encode (i : Instr) : Word :=
  wordOf i.fields

/-! ## Lengths -/

/-- How many extra words an operand consumes (30_encoding.md R54, column "extra word consumed"). -/
def Operand.extraWords : Operand → Nat
  | .regIdx _ => 1
  | .nextInd => 1
  | .nextLit => 1
  | _ => 0

/-- The words an instruction occupies (30_encoding.md R50, R60). -/
def Instr.length (i : Instr) : Nat :=
  1 + (i.operands.map Operand.extraWords).sum

/-- `x(c)` of 30_encoding.md R60. -/
def codeExtra (c : BitVec 6) : Nat :=
  if (0x10 ≤ c.toNat ∧ c.toNat ≤ 0x17) ∨ c.toNat = 0x1e ∨ c.toNat = 0x1f then 1 else 0

/-- `length(w)` of 30_encoding.md R60: a function of the instruction word alone. -/
def wordLength (w : Word) : Nat :=
  if w.extractLsb' 0 4 = 0 then 1 + codeExtra (w.extractLsb' 10 6)
  else 1 + codeExtra (w.extractLsb' 4 6) + codeExtra (w.extractLsb' 10 6)

/-- A word the dispatcher does not recognize: `w[3:0] = 0` and `w[9:4] != 0x01` (30_encoding.md R58). -/
def unrecognizedWord (w : Word) : Bool :=
  w.extractLsb' 0 4 == 0 && w.extractLsb' 4 6 != 0x01

/-! ## The host's view of the opcode table -/

/-- The instruction decoded from a table row's bits. The row's word is the first 16 bits of the numeral;
bits above `nbits` are zero, and the decoder reads no word but the first (30_encoding.md R61). -/
def decodeTableWord (nbits w : Nat) : Option Instr :=
  some (decode (BitVec.ofNat 16 (w % 2 ^ nbits)))

end Sys2Proof
end

