-- ==== Sys2Proof/Machine/State.lean ====
section
/-! DEFINITION. The architectural state, closed by 10_state.md R10: eight general registers, O, PC, SP
and memory, "exactly these parts and no others"; and the ways a step can stop. -/

namespace Sys2Proof.Machine

/-- The eight general registers, each an independent 16-bit cell (10_state.md R11). -/
structure RegFile where
  a : Word
  b : Word
  c : Word
  x : Word
  y : Word
  z : Word
  i : Word
  j : Word
  deriving DecidableEq, Repr

/-- One listed memory cell: a word address and the 16-bit word it holds. The smallest addressable unit
is the word; the machine has no bytes (20_memory.md R31; log 26). -/
abbrev WordCell := Nat × Word

/-- Memory as the list of the cells that hold something other than 0, addresses strictly rising. An
unlisted address reads as 0, the reset contents (10_state.md R21). -/
abbrev Memory := List WordCell

/-- The canonical form: addresses strictly rising, each below 65536, no cell equal to what an unlisted
address reads as. -/
abbrev Memory.wf (m : Memory) : Prop :=
  m.Pairwise (fun p q => p.1 < q.1) ∧ ∀ p ∈ m, p.1 < 65536 ∧ p.2 ≠ 0

/-- CPUState (10_state.md R10). -/
structure State where
  /-- A, B, C, X, Y, Z, I, J (R11). -/
  regs : RegFile
  /-- The overflow register (R13). -/
  o : Word
  /-- The program counter, a word address (R15). -/
  pc : Word
  /-- The stack pointer, a word address (R17). -/
  sp : Word
  /-- The 65536 words of memory (R19). -/
  mem : Memory
  deriving DecidableEq, Repr

/-- The state after reset (10_state.md R21): "all registers/memory zero, SP=0xFFFF, PC=0, O=0". -/
def State.reset : State where
  regs := { a := 0, b := 0, c := 0, x := 0, y := 0, z := 0, i := 0, j := 0 }
  o := 0
  pc := 0
  sp := 0xFFFF
  mem := []

/-- The invariant every step keeps: memory is in canonical form. -/
abbrev State.wf (s : State) : Prop :=
  s.mem.wf

/-- The one fault of the machine (60_exceptions.md R140). -/
inductive Fault where
  /-- Raised by the dispatch of an unrecognized non-basic word `w`, and by nothing else (R140, R143).
  `after` is the state the faulting step leaves: the fetch and the resolution of operand a stay done
  (44_jsr_nonbasic.md R132), and a caller that continues goes on from it (R147). Safe: it is the result
  the spec gives the step, with the state the spec gives it (log 8, log 27). -/
  | decodeFault (w : Word) (after : State)
  deriving DecidableEq, Repr

/-- Why the model gives an instruction no meaning. -/
inductive Refusal where
  /-- An arm of `exec` that has no meaning yet; no arm is left that raises it. Safe. -/
  | notModelled (mnemonic : String)
  deriving DecidableEq, Repr

/-- ExecResult (10_state.md R25): `next` is the spec's `ok`, `fault` the spec's `fault`. -/
abbrev Result := Host.Outcome State Fault Refusal

end Sys2Proof.Machine
end

