-- ==== Sys2Proof/Machine/Ops.lean ====
section
/-! DEFINITION. The named operations over registers and memory (00_scope.md R8), the fetch of one word
and the one fault. All reads and writes of state go through these. -/

namespace Sys2Proof.Machine

/-! ## General registers -/

/-- `R[r]` (00_scope.md R8). -/
def RegFile.read (f : RegFile) : Reg → Word
  | .a => f.a
  | .b => f.b
  | .c => f.c
  | .x => f.x
  | .y => f.y
  | .z => f.z
  | .i => f.i
  | .j => f.j

/-- `R[r] <- v` (00_scope.md R8). -/
def RegFile.write (f : RegFile) (r : Reg) (v : Word) : RegFile :=
  match r with
  | .a => { f with a := v }
  | .b => { f with b := v }
  | .c => { f with c := v }
  | .x => { f with x := v }
  | .y => { f with y := v }
  | .z => { f with z := v }
  | .i => { f with i := v }
  | .j => { f with j := v }

/-- Read general register `r` of the state. -/
def State.readReg (s : State) (r : Reg) : Word :=
  s.regs.read r

/-- Write general register `r` of the state. -/
def State.writeReg (s : State) (r : Reg) (v : Word) : State :=
  { s with regs := s.regs.write r v }

/-! ## Special registers -/

/-- `PC <- v`. -/
def State.setPc (s : State) (v : Word) : State :=
  { s with pc := v }

/-- `SP <- v`. -/
def State.setSp (s : State) (v : Word) : State :=
  { s with sp := v }

/-- `O <- v`. -/
def State.setO (s : State) (v : Word) : State :=
  { s with o := v }

/-! ## Memory -/

/-- The word at address `k`; an unlisted address holds 0 (10_state.md R21, R23). -/
def Memory.read : Memory → Nat → Word
  | [], _ => 0
  | cell :: m, k => if cell.1 = k then cell.2 else Memory.read m k

/-- Put a cell before the first cell of a greater address. -/
def Memory.insert (k : Nat) (v : Word) : Memory → Memory
  | [] => [(k, v)]
  | cell :: m => if k < cell.1 then (k, v) :: cell :: m else cell :: Memory.insert k v m

/-- The memory with no entry for address `k`. -/
def Memory.erase (m : Memory) (k : Nat) : Memory :=
  m.filter (fun cell => cell.1 ≠ k)

/-- The memory with `v` at address `k`; writing 0 leaves the address unlisted. -/
def Memory.write (m : Memory) (k : Nat) (v : Word) : Memory :=
  if v = 0 then m.erase k else Memory.insert k v (m.erase k)

/-- `MemRead(addr, 1)` (00_scope.md R8): no side effect (20_memory.md R35). -/
def State.readMem (s : State) (addr : Word) : Word :=
  s.mem.read addr.toNat

/-- `MemWrite(addr, 1, v)` (00_scope.md R8): changes that one cell and nothing else (20_memory.md R35). -/
def State.writeMem (s : State) (addr v : Word) : State :=
  { s with mem := s.mem.write addr.toNat v }

/-! ## Fetch, push and the fault -/

/-- `NextWord()` (40_step_and_operands.md R72): the word at PC and the state with PC moved on by one. -/
def nextWord (s : State) : Word × State :=
  (s.readMem s.pc, s.setPc (s.pc + 1))

/-- JSR's push (44_jsr_nonbasic.md R130): decrement SP, then write the cell at the new SP. -/
def pushWord (v : Word) (s : State) : State :=
  (s.setSp (s.sp - 1)).writeMem (s.sp - 1) v

/-- `raise DecodeFault(w)` (60_exceptions.md R140): the step ends with result `fault`. There is no trap
entry: nothing is saved, no mode or mask changes, no handler is entered (R145), so `s` is left as it is. -/
def raiseDecodeFault (w : Word) (s : State) : Result :=
  .fault (.decodeFault w s)

/-- The state a caller that does not halt goes on from (60_exceptions.md R147: nothing is returned from;
execution proceeds from the PC the faulting step left). -/
def Fault.after : Fault → State
  | .decodeFault _ s => s

end Sys2Proof.Machine
end

