-- ==== Sys2Proof/Machine/Operands.lean ====
section
/-! DEFINITION. The operand resolver, the one write-back operation, the skip, and the three shapes of a
basic instruction (40_step_and_operands.md, 43_conditional_skip.md). -/

namespace Sys2Proof.Machine

/-! ## Resolving one operand -/

/-- Write-back targets (40_step_and_operands.md R74). -/
inductive Target where
  /-- A general register. -/
  | reg (r : Reg)
  /-- The stack pointer. -/
  | sp
  /-- The program counter. -/
  | pc
  /-- The overflow register. -/
  | o
  /-- One memory cell, its address fixed at resolution. -/
  | mem (addr : Word)
  /-- Not writable. -/
  | none
  deriving DecidableEq, Repr

/-- What resolving an operand gives: the value, the target, and the state with the side effects on PC
and SP done (40_step_and_operands.md R75). -/
structure Resolved where
  value : Word
  target : Target
  state : State
  deriving DecidableEq, Repr

/-- A memory mode at address `addr`: the cell's present content, with the cell as target. -/
def memResolved (addr : Word) (s : State) : Resolved :=
  { value := s.readMem addr, target := .mem addr, state := s }

/-- `Resolve(code)` (40_step_and_operands.md R75 to R87). -/
def resolve : Operand → State → Resolved
  | .reg r, s => { value := s.readReg r, target := .reg r, state := s }
  | .regInd r, s => memResolved (s.readReg r) s
  | .regIdx r, s => memResolved (s.readReg r + (nextWord s).1) (nextWord s).2
  | .pop, s => { value := s.readMem s.sp, target := .mem s.sp, state := s.setSp (s.sp + 1) }
  | .peek, s => memResolved s.sp s
  | .push, s => memResolved (s.sp - 1) (s.setSp (s.sp - 1))
  | .sp, s => { value := s.sp, target := .sp, state := s }
  | .pc, s => { value := s.pc, target := .pc, state := s }
  | .o, s => { value := s.o, target := .o, state := s }
  | .nextInd, s => memResolved (nextWord s).1 (nextWord s).2
  | .nextLit, s => { value := (nextWord s).1, target := .none, state := (nextWord s).2 }
  | .lit v, s => { value := v.setWidth 16, target := .none, state := s }

/-! ## Resolving the two operands of a basic instruction -/

/-- The values and the target the dispatcher receives; operand b's target is dropped
(40_step_and_operands.md R96). -/
structure Resolved2 where
  av : Word
  dst : Target
  bv : Word
  state : State
  deriving DecidableEq, Repr

/-- Operand a is resolved whole before operand b, and its value is captured then
(40_step_and_operands.md R89, D10). -/
def resolve2 (a b : Operand) (s : State) : Resolved2 :=
  let ra := resolve a s
  let rb := resolve b ra.state
  { av := ra.value, dst := ra.target, bv := rb.value, state := rb.state }

/-! ## Write-back -/

/-- `WriteTarget(t, v)` (40_step_and_operands.md R90); a write to no target is discarded (R91). -/
def writeTarget (t : Target) (v : Word) (s : State) : State :=
  match t with
  | .reg r => s.writeReg r v
  | .sp => s.setSp v
  | .pc => s.setPc v
  | .o => s.setO v
  | .mem addr => s.writeMem addr v
  | .none => s

/-- What a target holds now; `none` for the unwritable target. -/
def readTarget (t : Target) (s : State) : Option Word :=
  match t with
  | .reg r => some (s.readReg r)
  | .sp => some s.sp
  | .pc => some s.pc
  | .o => some s.o
  | .mem addr => some (s.readMem addr)
  | .none => none

/-! ## The skip -/

/-- `Skip()` (43_conditional_skip.md R125): fetch the next instruction word and resolve its operands,
keeping the side effects on PC and SP; nothing is dispatched, so nothing faults and nothing chains
(R126, D7). -/
def skip (s : State) : State :=
  let f := nextWord s
  match fieldsOf f.1 with
  | .basic _ a b => (resolve2 (.ofCode a) (.ofCode b) f.2).state
  | .nonBasic _ a => (resolve (.ofCode a) f.2).state

/-! ## The shapes of a basic instruction -/

/-- An instruction that writes a result and leaves O (41_set_arith.md R106, 10_state.md R14, D4). -/
def execResult (result : Word → Word → Word) (a b : Operand) (s : State) : Result :=
  let r := resolve2 a b s
  .next (writeTarget r.dst (result r.av r.bv) r.state)

/-- An instruction that writes a result and then O (40_step_and_operands.md R92, D5). -/
def execResultO (result overflow : Word → Word → Word) (a b : Operand) (s : State) : Result :=
  let r := resolve2 a b s
  .next ((writeTarget r.dst (result r.av r.bv) r.state).setO (overflow r.av r.bv))

/-- A conditional: it skips the next instruction, inside its own step, unless the test holds
(43_conditional_skip.md R127, R124, D6). -/
def execTest (test : Word → Word → Bool) (a b : Operand) (s : State) : Result :=
  let r := resolve2 a b s
  .next (if test r.av r.bv then r.state else skip r.state)

end Sys2Proof.Machine
end

