-- ==== Sys2Proof/Machine/Conditional.lean ====
section
/-! DEFINITION. IFE, IFN, IFG, IFB (43_conditional_skip.md). -/

namespace Sys2Proof.Machine

/-- IFE a, b (R120). -/
def execIfe (a b : Operand) (s : State) : Result :=
  execTest testEqual a b s

/-- IFN a, b (R121). -/
def execIfn (a b : Operand) (s : State) : Result :=
  execTest testNotEqual a b s

/-- IFG a, b (R122). -/
def execIfg (a b : Operand) (s : State) : Result :=
  execTest testGreater a b s

/-- IFB a, b (R123). -/
def execIfb (a b : Operand) (s : State) : Result :=
  execTest testBits a b s

end Sys2Proof.Machine
end

