-- ==== Sys2Proof/Machine/NonBasic.lean ====
section
/-! DEFINITION. JSR and the unrecognized non-basic words (44_jsr_nonbasic.md). -/

namespace Sys2Proof.Machine

/-- JSR a (R130): a is resolved before the push; the word pushed is PC past all words of the JSR; then
PC takes a's value. O is left (D4). -/
def execJsr (a : Operand) (s : State) : Result :=
  let r := resolve a s
  .next ((pushWord r.state.pc r.state).setPc r.value)

/-- An unrecognized non-basic word (R132): operand a is resolved, then the decode fault is raised with
the word (D8). -/
def execUnrecognized (n : BitVec 6) (a : Operand) (s : State) : Result :=
  raiseDecodeFault (wordOf (.nonBasic n a.code)) (resolve a s).state

end Sys2Proof.Machine
end

