-- ==== Sys2Proof/Machine/SetArith.lean ====
section
/-! DEFINITION. SET, ADD, SUB, MUL, DIV, MOD (41_set_arith.md). -/

namespace Sys2Proof.Machine

/-- SET a, b (R100): operand a is resolved, its value not used. O is left (D4). -/
def execSet (a b : Operand) (s : State) : Result :=
  execResult (fun _ bv => bv) a b s

/-- ADD a, b (R101). -/
def execAdd (a b : Operand) (s : State) : Result :=
  execResultO addResult addOverflow a b s

/-- SUB a, b (R102). -/
def execSub (a b : Operand) (s : State) : Result :=
  execResultO subResult subOverflow a b s

/-- MUL a, b (R103). -/
def execMul (a b : Operand) (s : State) : Result :=
  execResultO mulResult mulOverflow a b s

/-- DIV a, b (R104): O is written on both branches. -/
def execDiv (a b : Operand) (s : State) : Result :=
  execResultO divResult divOverflow a b s

/-- MOD a, b (R105): O is left on both branches (C3, D4). -/
def execMod (a b : Operand) (s : State) : Result :=
  execResult modResult a b s

end Sys2Proof.Machine
end

