-- ==== Sys2Proof/Machine/ShiftLogic.lean ====
section
/-! DEFINITION. SHL, SHR, AND, BOR, XOR (42_shift_logic.md). -/

namespace Sys2Proof.Machine

/-- SHL a, b (R110). -/
def execShl (a b : Operand) (s : State) : Result :=
  execResultO shlResult shlOverflow a b s

/-- SHR a, b (R111). -/
def execShr (a b : Operand) (s : State) : Result :=
  execResultO shrResult shrOverflow a b s

/-- AND a, b (R112). O is left (D4). -/
def execAnd (a b : Operand) (s : State) : Result :=
  execResult (fun av bv => av &&& bv) a b s

/-- BOR a, b (R113). O is left (D4). -/
def execBor (a b : Operand) (s : State) : Result :=
  execResult (fun av bv => av ||| bv) a b s

/-- XOR a, b (R114). O is left (D4). -/
def execXor (a b : Operand) (s : State) : Result :=
  execResult (fun av bv => av ^^^ bv) a b s

end Sys2Proof.Machine
end

