-- ==== Sys2Proof/Machine/Dispatch.lean ====
section
/-! DEFINITION. The dispatcher: one arm per instruction (40_step_and_operands.md R96, R70). The state it
is given is the one after the fetch of the instruction word. -/

namespace Sys2Proof.Machine

def exec (i : Instr) (s : State) : Host.Outcome State Fault Refusal :=
  match i with
  | .set a b => Sys2Proof.Machine.execSet a b s
  | .add a b => Sys2Proof.Machine.execAdd a b s
  | .sub a b => Sys2Proof.Machine.execSub a b s
  | .mul a b => Sys2Proof.Machine.execMul a b s
  | .div a b => Sys2Proof.Machine.execDiv a b s
  | .mod a b => Sys2Proof.Machine.execMod a b s
  | .shl a b => Sys2Proof.Machine.execShl a b s
  | .shr a b => Sys2Proof.Machine.execShr a b s
  | .and a b => Sys2Proof.Machine.execAnd a b s
  | .bor a b => Sys2Proof.Machine.execBor a b s
  | .xor a b => Sys2Proof.Machine.execXor a b s
  | .ife a b => Sys2Proof.Machine.execIfe a b s
  | .ifn a b => Sys2Proof.Machine.execIfn a b s
  | .ifg a b => Sys2Proof.Machine.execIfg a b s
  | .ifb a b => Sys2Proof.Machine.execIfb a b s
  | .jsr a => Sys2Proof.Machine.execJsr a s
  | .unrecognized n a => Sys2Proof.Machine.execUnrecognized n a s

end Sys2Proof.Machine
end

