-- ==== Sys2Proof/Machine/Step.lean ====
section
/-! DEFINITION. One step (40_step_and_operands.md R70): fetch the instruction word, moving PC on by one
(R71, D16), decode it, and execute it on the state after the fetch. -/

namespace Sys2Proof.Machine

/-- `Step()` (40_step_and_operands.md R70). -/
def step (s : State) : Host.Outcome State Fault Refusal :=
  exec (decode (nextWord s).1) (nextWord s).2

/-- `s` with the words of a table row stored where `step` fetches: the first word at PC, the two words
that may follow it at the next addresses modulo 65536 (30_encoding.md R50; log 29). -/
def State.withFetchWord (s : State) (nbits w : Nat) : State :=
  ((s.writeMem s.pc (BitVec.ofNat 16 (w % 2 ^ nbits))).writeMem
    (s.pc + 1) (BitVec.ofNat 16 (w % 2 ^ nbits / 65536))).writeMem
    (s.pc + 2) (BitVec.ofNat 16 (w % 2 ^ nbits / 4294967296))

end Sys2Proof.Machine
end

