-- ==== Sys2Proof/Machine/Port.lean ====
section
/-! DEFINITION. The memory port (10_state.md R26, 20_memory.md R45): the word reads and writes one step
issues, in order. It observes the step and adds nothing to it: reads have no side effect (20_memory.md
R35), so no rule of the machine depends on this transcript (log 33). -/

namespace Sys2Proof.Machine

/-- One access at the memory port: one address and one 16-bit datum (10_state.md R26). -/
inductive Access where
  | read (addr value : Word)
  | write (addr value : Word)
  deriving DecidableEq, Repr

/-- The read of a fetch or of an extra word (40_step_and_operands.md R72). -/
def fetchPort (s : State) : List Access :=
  [.read s.pc (s.readMem s.pc)]

/-- The reads of one resolution: the extra word, then the operand's cell (10_state.md R26 (2), (3)). A
memory mode reads its cell whether or not the value is used (40_step_and_operands.md R88). -/
def resolvePort (x : Operand) (s : State) : List Access :=
  (if x.extraWords = 1 then fetchPort s else []) ++
    match (resolve x s).target with
    | .mem addr => [.read addr (resolve x s).value]
    | _ => []

/-- The reads of resolving several operands, one after another. -/
def resolvePorts : List Operand → State → List Access
  | [], _ => []
  | x :: rest, s => resolvePort x s ++ resolvePorts rest (resolve x s).state

/-- Whether an instruction is a conditional whose test fails on the state after its fetch. -/
def skips (i : Instr) (s : State) : Bool :=
  match i with
  | .ife a b => !testEqual (resolve2 a b s).av (resolve2 a b s).bv
  | .ifn a b => !testNotEqual (resolve2 a b s).av (resolve2 a b s).bv
  | .ifg a b => !testGreater (resolve2 a b s).av (resolve2 a b s).bv
  | .ifb a b => !testBits (resolve2 a b s).av (resolve2 a b s).bv
  | _ => false

/-- The state after all operands are resolved in order. -/
def resolveAll : List Operand → State → State
  | [], s => s
  | x :: rest, s => resolveAll rest (resolve x s).state

/-- The reads of a skip: the word and its operands (10_state.md R26 (6) to (10)). -/
def skipPort (s : State) : List Access :=
  fetchPort s ++ resolvePorts (decode (nextWord s).1).operands (nextWord s).2

/-- The address of a memory target. -/
def Target.addr : Target → Option Word
  | .mem addr => .some addr
  | _ => .none

/-- The address an instruction stores to, on the state after its fetch: the destination of a writing
instruction where it is a memory cell, the new SP for JSR (20_memory.md R45). -/
def storeAddr (i : Instr) (s : State) : Option Word :=
  match i with
  | .set a _ => (resolve a s).target.addr
  | .add a _ => (resolve a s).target.addr
  | .sub a _ => (resolve a s).target.addr
  | .mul a _ => (resolve a s).target.addr
  | .div a _ => (resolve a s).target.addr
  | .mod a _ => (resolve a s).target.addr
  | .shl a _ => (resolve a s).target.addr
  | .shr a _ => (resolve a s).target.addr
  | .and a _ => (resolve a s).target.addr
  | .bor a _ => (resolve a s).target.addr
  | .xor a _ => (resolve a s).target.addr
  | .jsr a => some ((resolve a s).state.sp - 1)
  | .ife _ _ => none
  | .ifn _ _ => none
  | .ifg _ _ => none
  | .ifb _ _ => none
  | .unrecognized _ _ => none

/-- The word an instruction writes, on the state after its fetch: the result a writing instruction writes
back (41_set_arith.md, 42_shift_logic.md), the return address JSR pushes (44_jsr_nonbasic.md R130); `none`
for an instruction that writes none. -/
def writtenWord (i : Instr) (s : State) : Option Word :=
  match i with
  | .set a b => some (resolve2 a b s).bv
  | .add a b => some (addResult (resolve2 a b s).av (resolve2 a b s).bv)
  | .sub a b => some (subResult (resolve2 a b s).av (resolve2 a b s).bv)
  | .mul a b => some (mulResult (resolve2 a b s).av (resolve2 a b s).bv)
  | .div a b => some (divResult (resolve2 a b s).av (resolve2 a b s).bv)
  | .mod a b => some (modResult (resolve2 a b s).av (resolve2 a b s).bv)
  | .shl a b => some (shlResult (resolve2 a b s).av (resolve2 a b s).bv)
  | .shr a b => some (shrResult (resolve2 a b s).av (resolve2 a b s).bv)
  | .and a b => some ((resolve2 a b s).av &&& (resolve2 a b s).bv)
  | .bor a b => some ((resolve2 a b s).av ||| (resolve2 a b s).bv)
  | .xor a b => some ((resolve2 a b s).av ^^^ (resolve2 a b s).bv)
  | .jsr a => some (resolve a s).state.pc
  | .ife _ _ => none
  | .ifn _ _ => none
  | .ifg _ _ => none
  | .ifb _ _ => none
  | .unrecognized _ _ => none

/-- The store of an instruction, where the word it writes goes to a memory cell (20_memory.md R45). -/
def writePort (i : Instr) (s : State) : List Access :=
  match storeAddr i s, writtenWord i s with
  | some addr, some v => [.write addr v]
  | _, _ => []

/-- The reads of `n` instruction and extra words, in order of address, from PC on. -/
def wordReads : Nat → State → List Access
  | 0, _ => []
  | n + 1, s => fetchPort s ++ wordReads n (nextWord s).2

/-- The reads of one step, in order (10_state.md R26). -/
def stepReads (s : State) : List Access :=
  let f := nextWord s
  let i := decode f.1
  fetchPort s ++ resolvePorts i.operands f.2 ++
    if skips i f.2 then skipPort (resolveAll i.operands f.2) else []

/-- The write of one step, if it has one. -/
def stepWrites (s : State) : List Access :=
  writePort (decode (nextWord s).1) (nextWord s).2

/-- All accesses of one step: every read comes before the write (20_memory.md R40). -/
def portTrace (s : State) : List Access :=
  stepReads s ++ stepWrites s

/-- What the accesses do to a memory. -/
def replay : List Access → Memory → Memory
  | [], m => m
  | .read _ _ :: rest, m => replay rest m
  | .write addr v :: rest, m => replay rest (m.write addr.toNat v)

end Sys2Proof.Machine
end

