-- ==== Sys2Proof/Config.lean ====
section
/-! DEFINITION. The parameters the spec leaves to the model's user (00_scope.md R5): `on_fault` (D18)
and `initial_image` (D19). The third, `image_byte_order` (D15), is read by no rule of the core and is
not modelled (log 15). No value is free: 70_reset_and_hazards.md R170. -/

namespace Sys2Proof

/-- `on_fault`: what the caller of `step` does after a decode fault ("the caller decides whether to
halt or continue", 60_exceptions.md R140, R145; 92_eei_decisions.md D18). -/
inductive Config.OnFault where
  /-- The run ends at the first fault. -/
  | halt
  /-- The caller calls `step` again (the spec's `continue`). -/
  | resume
  deriving DecidableEq, Repr

/-- `initial_image`: the words a loader lays over the zeroed memory before the first step
(70_reset_and_hazards.md R163). Pairs of an address and a word; a later pair overrides an earlier one. -/
abbrev Config.Image := List (Word × Word)

end Sys2Proof
end

