-- ==== Sys2Proof/Machine/Run.lean ====
section
/-! DEFINITION. What stands outside a step: the loader's image, the host's moves between steps, and a
run under each policy on faults (70_reset_and_hazards.md section 2, 10_state.md R27). -/

namespace Sys2Proof.Machine

/-- The one move the host has on the state between steps: writing a memory cell (10_state.md R27). -/
def hostWrite (s : State) (addr v : Word) : State :=
  s.writeMem addr v

/-- Lay an image over memory (70_reset_and_hazards.md R163). -/
def loadImage : Config.Image → State → State
  | [], s => s
  | cell :: rest, s => loadImage rest (hostWrite s cell.1 cell.2)

/-- The state at the first step of a run (70_reset_and_hazards.md R163, R165). -/
def start (image : Config.Image) : State :=
  loadImage image State.reset

/-- How a run ends (70_reset_and_hazards.md R166, D22). -/
inductive RunEnd where
  /-- Finished with fault: the first faulting step, under `halt`, and the state it left. -/
  | finishedWithFault (w : Word) (final : State)
  /-- Stopped by the host after the steps it chose. -/
  | stoppedByHost (final : State)
  /-- A step had no meaning; no instruction of this model answers so. -/
  | refused (r : Refusal)
  deriving DecidableEq, Repr

/-- How the caller's policy ends a run, or goes on with it, after a fault (D18). -/
def RunEnd.ofFault (p : Config.OnFault) (goOn : State → RunEnd) : Fault → RunEnd
  | .decodeFault w after =>
    match p with
    | .halt => .finishedWithFault w after
    | .resume => goOn after

/-- A move of the host that acts on the machine (70_reset_and_hazards.md R165 (3)). There is none that
writes a register, O, PC or SP (10_state.md R27, D17); a host that reads state changes nothing. -/
inductive HostMove where
  /-- Write one memory cell, between steps (10_state.md R27). -/
  | write (addr v : Word)
  /-- Call `step` once (10_state.md R25). -/
  | step
  deriving DecidableEq, Repr

/-- A run by the host's moves, in order, until they end or a fault ends it (70_reset_and_hazards.md R165 (3),
(4), R166; 60_exceptions.md R145, R147). A step is one move, so no write falls inside one (10_state.md R28). -/
def runMoves (p : Config.OnFault) : List HostMove → State → RunEnd
  | [], s => .stoppedByHost s
  | .write addr v :: rest, s => runMoves p rest (hostWrite s addr v)
  | .step :: rest, s =>
    match Machine.step s with
    | .next t => runMoves p rest t
    | .fault f => .ofFault p (runMoves p rest) f
    | .refused r => .refused r

/-- A whole run (70_reset_and_hazards.md R165): reset, the loader's image, then the host's moves. -/
def runFrom (p : Config.OnFault) (image : Config.Image) (moves : List HostMove) : RunEnd :=
  runMoves p moves (start image)

/-- At most `k` steps in free-running mode, with no write between them (60_exceptions.md R145). -/
def runUnder (p : Config.OnFault) (k : Nat) (s : State) : RunEnd :=
  runMoves p (List.replicate k .step) s

/-! ## The results the host reads -/

/-- What one call of `step` returns to the host (10_state.md R25, 60_exceptions.md R140). -/
inductive StepResult where
  | ok
  | fault (w : Word)
  deriving DecidableEq, Repr

/-- The results of a run's steps, one for each call the host makes (70_reset_and_hazards.md R165 (3)). -/
def resultsRead (p : Config.OnFault) : List HostMove → State → List StepResult
  | [], _ => []
  | .write addr v :: rest, s => resultsRead p rest (hostWrite s addr v)
  | .step :: rest, s =>
    match Machine.step s with
    | .next t => .ok :: resultsRead p rest t
    | .fault (.decodeFault w after) =>
      .fault w ::
        match p with
        | .halt => []
        | .resume => resultsRead p rest after
    | .refused _ => []

end Sys2Proof.Machine
end

