-- ==== Sys2Proof/Safety.lean ====
section
/-! DEFINITION. What counts as a safe run, in the terms claims use: a run in which no step reports the
decode fault (60_exceptions.md R141); and the classes of instruction that claims name. -/

namespace Sys2Proof.Safety

open Sys2Proof.Machine

/-! ## Runs -/

/-- The first `k` steps from `s` all return `ok`: no fault is reported. -/
def noFaultReported : Nat → State → Bool
  | 0, _ => true
  | k + 1, s =>
    match step s with
    | .next t => noFaultReported k t
    | _ => false

/-! ## The word at PC -/

/-- The word at PC is `w` for everything that reads it there: a step fetches it as an instruction word,
and the three operand codes with an extra word consume it (20_memory.md R42). -/
def fetchesWord (u : State) (w : Word) : Prop :=
  step u = exec (decode w) (u.setPc (u.pc + 1)) ∧
  (resolve .nextLit u).value = w ∧
  (resolve .nextInd u).target = .mem w ∧
  (∀ r : Reg, (resolve (.regIdx r) u).target = .mem (u.readReg r + w))

/-! ## Classes of instruction -/

/-- The operands of the eleven writing instructions (10_state.md R12). -/
def writingOperands : Instr → Option (Operand × Operand)
  | .set a b => some (a, b)
  | .add a b => some (a, b)
  | .sub a b => some (a, b)
  | .mul a b => some (a, b)
  | .div a b => some (a, b)
  | .mod a b => some (a, b)
  | .shl a b => some (a, b)
  | .shr a b => some (a, b)
  | .and a b => some (a, b)
  | .bor a b => some (a, b)
  | .xor a b => some (a, b)
  | .ife _ _ => none
  | .ifn _ _ => none
  | .ifg _ _ => none
  | .ifb _ _ => none
  | .jsr _ => none
  | .unrecognized _ _ => none

/-- The operands of the four conditionals (43_conditional_skip.md R127). -/
def testingOperands : Instr → Option (Operand × Operand)
  | .set _ _ => none
  | .add _ _ => none
  | .sub _ _ => none
  | .mul _ _ => none
  | .div _ _ => none
  | .mod _ _ => none
  | .shl _ _ => none
  | .shr _ _ => none
  | .and _ _ => none
  | .bor _ _ => none
  | .xor _ _ => none
  | .ife a b => some (a, b)
  | .ifn a b => some (a, b)
  | .ifg a b => some (a, b)
  | .ifb a b => some (a, b)
  | .jsr _ => none
  | .unrecognized _ _ => none

/-- The six instructions that write O on every execution (10_state.md R14). -/
def writesO : Instr → Bool
  | .set _ _ => false
  | .add _ _ => true
  | .sub _ _ => true
  | .mul _ _ => true
  | .div _ _ => true
  | .mod _ _ => false
  | .shl _ _ => true
  | .shr _ _ => true
  | .and _ _ => false
  | .bor _ _ => false
  | .xor _ _ => false
  | .ife _ _ => false
  | .ifn _ _ => false
  | .ifg _ _ => false
  | .ifb _ _ => false
  | .jsr _ => false
  | .unrecognized _ _ => false

/-- POP or PUSH: the two operands whose resolution moves SP (10_state.md R18). -/
def movesSp : Operand → Bool
  | .pop => true
  | .push => true
  | _ => false

end Sys2Proof.Safety
end

