-- ==== Sys2Proof/Certificates/Slice0/Obligations.lean ====
section
/-! DEFINITION. The statements about the model, for the provers. A docstring names the rule or the section
of spec/ a statement formalises and, where it rests on a decision the spec marks as its own
(92_eei_decisions.md), that decision and the log entry of the same number. -/

open Sys2Proof Sys2Proof.Machine Sys2Proof.Safety

/-! ## Encoding -/

/-- 30_encoding.md R51: the two formats as slices of the word, told apart by the low four bits. -/
def Obligations.WordFieldsFollowLayout : Prop :=
  ∀ w : Word,
    (w.toNat % 16 ≠ 0 → ∃ o a b, fieldsOf w = .basic o a b ∧
      o.toNat = w.toNat % 16 ∧ a.toNat = w.toNat / 16 % 64 ∧ b.toNat = w.toNat / 1024) ∧
    (w.toNat % 16 = 0 → ∃ n a, fieldsOf w = .nonBasic n a ∧
      n.toNat = w.toNat / 16 % 64 ∧ a.toNat = w.toNat / 1024)

/-- 30_encoding.md R53: encode and decode are inverses on fields, both ways, so decode is a bijection
between the 65536 words and the representable terms (the second identity is marked derived there). -/
def Obligations.FieldsEncodeDecodeInverse : Prop :=
  (∀ f : Fields, f.wf = true → fieldsOf (wordOf f) = f) ∧
  (∀ w : Word, wordOf (fieldsOf w) = w ∧ (fieldsOf w).wf = true)

/-- 30_encoding.md R53 on whole instructions, with every operand at every value: no bit of a word is
dropped. The opcode and register numbers are decisions D1, D2, D3 (log 1, 2, 3). -/
def Obligations.InstrEncodeDecodeInverse : Prop :=
  (∀ i : Instr, i.wf = true → decode (encode i) = i) ∧
  (∀ w : Word, encode (decode w) = w ∧ (decode w).wf = true)

/-- Nine words of 30_encoding.md R65, and 0x9007, the SHL of 42_shift_logic.md R110's example: one or two
of each family (numbers: D1, D2, D3; log 1, 2, 3). -/
def Obligations.WorkedWordsDecode : Prop :=
  decode 0x9401 = .set (.reg .a) (.lit 5) ∧
  decode 0x7de1 = .set .nextInd .nextLit ∧
  decode 0x2161 = .set (.regIdx .i) (.regInd .a) ∧
  decode 0x9da1 = .set .push (.lit 7) ∧
  decode 0x85c3 = .sub .pc (.lit 1) ∧
  decode 0x0405 = .div (.reg .a) (.reg .b) ∧
  decode 0x9007 = .shl (.reg .a) (.lit 4) ∧
  decode 0xc00d = .ifn (.reg .a) (.lit 0x10) ∧
  decode 0x7c10 = .jsr .nextLit ∧
  decode 0x0000 = .unrecognized 0 (.reg .a)

/-- 10_state.md R11, the numbers of the eight general registers (D3, log 3), and 30_encoding.md R54, the
operand code table row by row: the 64 codes and the operands are in bijection. -/
def Obligations.OperandCodesBijective : Prop :=
  (Reg.num .a = 0 ∧ Reg.num .b = 1 ∧ Reg.num .c = 2 ∧ Reg.num .x = 3 ∧
    Reg.num .y = 4 ∧ Reg.num .z = 5 ∧ Reg.num .i = 6 ∧ Reg.num .j = 7) ∧
  (∀ r : Reg, Reg.ofNum r.num = r ∧ (Operand.reg r).code.toNat = r.num.toNat ∧
    (Operand.regInd r).code.toNat = 0x08 + r.num.toNat ∧
    (Operand.regIdx r).code.toNat = 0x10 + r.num.toNat) ∧
  (Operand.pop.code = 0x18 ∧ Operand.peek.code = 0x19 ∧ Operand.push.code = 0x1a ∧
    Operand.sp.code = 0x1b ∧ Operand.pc.code = 0x1c ∧ Operand.o.code = 0x1d ∧
    Operand.nextInd.code = 0x1e ∧ Operand.nextLit.code = 0x1f) ∧
  (∀ v : BitVec 5, (Operand.lit v).code.toNat = 0x20 + v.toNat) ∧
  (∀ c : BitVec 6, (Operand.ofCode c).code = c) ∧ (∀ x : Operand, Operand.ofCode x.code = x)

/-- The rows of opcode_table.json tried as masks: the low four bits select the basic instruction, the
low ten bits 0x010 select JSR, and every other word is unrecognized (numbers: D1, D2; log 1, 2). -/
def Obligations.DecodeFollowsOpcodeTable : Prop :=
  ∀ w : Word,
    let a := Operand.ofCode (w.extractLsb' 4 6)
    let b := Operand.ofCode (w.extractLsb' 10 6)
    (w &&& 0x000F = 0x0001 → decode w = .set a b) ∧
    (w &&& 0x000F = 0x0002 → decode w = .add a b) ∧
    (w &&& 0x000F = 0x0003 → decode w = .sub a b) ∧
    (w &&& 0x000F = 0x0004 → decode w = .mul a b) ∧
    (w &&& 0x000F = 0x0005 → decode w = .div a b) ∧
    (w &&& 0x000F = 0x0006 → decode w = .mod a b) ∧
    (w &&& 0x000F = 0x0007 → decode w = .shl a b) ∧
    (w &&& 0x000F = 0x0008 → decode w = .shr a b) ∧
    (w &&& 0x000F = 0x0009 → decode w = .and a b) ∧
    (w &&& 0x000F = 0x000A → decode w = .bor a b) ∧
    (w &&& 0x000F = 0x000B → decode w = .xor a b) ∧
    (w &&& 0x000F = 0x000C → decode w = .ife a b) ∧
    (w &&& 0x000F = 0x000D → decode w = .ifn a b) ∧
    (w &&& 0x000F = 0x000E → decode w = .ifg a b) ∧
    (w &&& 0x000F = 0x000F → decode w = .ifb a b) ∧
    (w &&& 0x03FF = 0x0010 → decode w = .jsr b) ∧
    (w &&& 0x000F = 0x0000 → w &&& 0x03FF ≠ 0x0010 →
      decode w = .unrecognized (w.extractLsb' 4 6) b)

/-- 30_encoding.md R60 (marked derived): the length is a function of the instruction word alone, and
resolving all operands moves PC past exactly the words that remain after the fetch. -/
def Obligations.PcPassesTheWholeInstruction : Prop :=
  ∀ (i : Instr) (s : State),
    i.length = wordLength (encode i) ∧
    (resolveAll i.operands s).pc.toNat = (s.pc.toNat + (i.length - 1)) % 65536

/-! ## Reset -/

/-- 10_state.md R21: every register and every memory cell after reset; the first word is fetched from
address 0; a loader may overwrite any cell. -/
def Obligations.ResetLeavesStatedValues : Prop :=
  (∀ r : Reg, State.reset.readReg r = 0) ∧ State.reset.o = 0 ∧ State.reset.pc = 0 ∧
  State.reset.sp = 0xFFFF ∧ (∀ k : Word, State.reset.readMem k = 0) ∧
  (nextWord State.reset).1 = State.reset.readMem 0 ∧
  (∀ k v : Word, (hostWrite State.reset k v).readMem k = v)

/-- 70_reset_and_hazards.md R162: the first step fetches from address 0, whatever the loader placed. -/
def Obligations.FirstFetchIsFromAddressZero : Prop :=
  ∀ image : Config.Image, (start image).pc = 0 ∧ (nextWord (start image)).1 = (start image).readMem 0

/-- The reset state meets the invariant of the model's memory form (log 26). -/
def Obligations.ResetMemoryIsCanonical : Prop :=
  State.reset.wf

/-- Every step keeps memory in canonical form, so addresses stay below 65536 (20_memory.md R30) and
equal memories stay equal data; the state a fault leaves has it too (log 26, log 27). -/
def Obligations.StepKeepsMemoryCanonical : Prop :=
  ∀ s : State, s.wf →
    (∀ t, step s = .next t → t.wf) ∧ (∀ f, step s = .fault f → f.after.wf)

/-- 70_reset_and_hazards.md R163: the state at the first step is the reset state with the image's words
laid over memory; where an image lists an address twice, the later word stands (D19, log 19). The last
clause, that this memory has the canonical form, is no rule of the spec: the form is the model's choice
(log 26). -/
def Obligations.ImageIsLaidOverZeroedMemory : Prop :=
  ∀ (image : Config.Image),
    (∀ k : Word, (start image).readMem k = (image.reverse.lookup k).getD 0) ∧
    (start image).regs = State.reset.regs ∧ (start image).o = 0 ∧ (start image).sp = 0xFFFF ∧
    (start image).pc = 0 ∧ (start image).wf

/-! ## Fetching a word and resolving an operand -/

/-- 40_step_and_operands.md R72: the word is read at the old PC, PC then moves on by one modulo 65536,
nothing else changes; every operand that consumes an extra word uses it. That the fetch of a step uses it
too, so that the fetch increments PC, is decision D16 (R71, log 16). -/
def Obligations.NextWordReadsThenAdvances : Prop :=
  ∀ s : State,
    (nextWord s).1 = s.readMem s.pc ∧
    (nextWord s).2.pc.toNat = (s.pc.toNat + 1) % 65536 ∧
    (nextWord s).2.regs = s.regs ∧ (nextWord s).2.o = s.o ∧ (nextWord s).2.sp = s.sp ∧
    (nextWord s).2.mem = s.mem ∧
    step s = exec (decode (nextWord s).1) (nextWord s).2 ∧
    (∀ x : Operand, x.extraWords = 1 → (resolve x s).state = (nextWord s).2)

/-- 40_step_and_operands.md R76: codes 0x00 to 0x07, with no side effect and no memory access. -/
def Obligations.RegisterDirectResolves : Prop :=
  ∀ (i : BitVec 3) (s : State),
    resolve (.ofCode (BitVec.ofNat 6 i.toNat)) s =
      { value := s.readReg (.ofNum i), target := .reg (.ofNum i), state := s } ∧
    resolvePort (.ofCode (BitVec.ofNat 6 i.toNat)) s = []

/-- 40_step_and_operands.md R77: codes 0x08 to 0x0f. -/
def Obligations.RegisterIndirectResolves : Prop :=
  ∀ (i : BitVec 3) (s : State),
    resolve (.ofCode (BitVec.ofNat 6 (0x08 + i.toNat))) s =
      { value := s.readMem (s.readReg (.ofNum i)), target := .mem (s.readReg (.ofNum i)), state := s }

/-- 40_step_and_operands.md R78: codes 0x10 to 0x17; the sum wraps modulo 65536. -/
def Obligations.IndexedResolves : Prop :=
  ∀ (i : BitVec 3) (s : State),
    let addr : Word :=
      BitVec.ofNat 16 (((s.readReg (.ofNum i)).toNat + (s.readMem s.pc).toNat) % 65536)
    resolve (.ofCode (BitVec.ofNat 6 (0x10 + i.toNat))) s =
      { value := s.readMem addr, target := .mem addr, state := s.setPc (s.pc + 1) }

/-- 40_step_and_operands.md R79: POP reads and names the cell at the old SP and then increments SP, as
operand a, as operand b, as a destination (that SET leaves O there: D4, log 4), and in every skipped
instruction, non-basic or basic, with POP as a or as b. -/
def Obligations.PopResolves : Prop :=
  (∀ s : State, resolve (.ofCode 0x18) s =
    { value := s.readMem s.sp, target := .mem s.sp, state := s.setSp (s.sp + 1) }) ∧
  (∀ (x : Operand) (s : State),
    (resolve2 .pop x s).state = (resolve x (s.setSp (s.sp + 1))).state ∧
    (resolve2 x .pop s).state = (resolve x s).state.setSp ((resolve x s).state.sp + 1)) ∧
  (∀ (b : Operand) (s : State),
    let r := resolve b (s.setSp (s.sp + 1))
    exec (.set .pop b) s = .next (r.state.writeMem s.sp r.value)) ∧
  (∀ s : State,
    let s1 := s.setPc (s.pc + 1)
    (∀ n, fieldsOf (s.readMem s.pc) = .nonBasic n 0x18 → skip s = s1.setSp (s.sp + 1)) ∧
    (∀ o b, fieldsOf (s.readMem s.pc) = .basic o 0x18 b →
      skip s = (resolve (.ofCode b) (s1.setSp (s.sp + 1))).state) ∧
    (∀ o a, fieldsOf (s.readMem s.pc) = .basic o a 0x18 →
      skip s = (resolve (.ofCode a) s1).state.setSp ((resolve (.ofCode a) s1).state.sp + 1)))

/-- 40_step_and_operands.md R80: PEEK. -/
def Obligations.PeekResolves : Prop :=
  ∀ s : State, resolve (.ofCode 0x19) s =
    { value := s.readMem s.sp, target := .mem s.sp, state := s }

/-- 40_step_and_operands.md R81: PUSH decrements SP first and names the cell at the new SP. That it
yields this cell's content when it is read is decision D9 (log 9). -/
def Obligations.PushResolves : Prop :=
  ∀ s : State, resolve (.ofCode 0x1a) s =
    { value := s.readMem (s.sp - 1), target := .mem (s.sp - 1), state := s.setSp (s.sp - 1) }

/-- 40_step_and_operands.md R82 and R84: SP direct (with an earlier POP's or PUSH's change already in)
and O direct. -/
def Obligations.SpAndOResolve : Prop :=
  (∀ s : State, resolve (.ofCode 0x1b) s = { value := s.sp, target := .sp, state := s }) ∧
  (∀ s : State, (resolve2 .pop .sp s).bv = s.sp + 1 ∧ (resolve2 .push .sp s).bv = s.sp - 1) ∧
  (∀ s : State, resolve (.ofCode 0x1d) s = { value := s.o, target := .o, state := s })

/-- 40_step_and_operands.md R83 (marked derived; the fetch increment is D16, log 16): in the step of an
instruction at address P, operand a reads PC as P + 1, operand b as P + 1 and one more if a consumed an
extra word. -/
def Obligations.PcOperandValue : Prop :=
  ∀ (x : Operand) (s : State),
    let s1 := (nextWord s).2
    resolve (.ofCode 0x1c) s1 = { value := s.pc + 1, target := .pc, state := s1 } ∧
    (resolve2 .pc x s1).av = s.pc + 1 ∧
    (resolve2 x .pc s1).bv.toNat = (s.pc.toNat + 1 + x.extraWords) % 65536

/-- 40_step_and_operands.md R85: code 0x1e. -/
def Obligations.NextWordIndirectResolves : Prop :=
  ∀ s : State, resolve (.ofCode 0x1e) s =
    { value := s.readMem (s.readMem s.pc), target := .mem (s.readMem s.pc),
      state := s.setPc (s.pc + 1) }

/-- 40_step_and_operands.md R86: code 0x1f, one read of memory and no target. -/
def Obligations.NextWordLiteralResolves : Prop :=
  ∀ s : State,
    resolve (.ofCode 0x1f) s =
      { value := s.readMem s.pc, target := .none, state := s.setPc (s.pc + 1) } ∧
    resolvePort (.ofCode 0x1f) s = [.read s.pc (s.readMem s.pc)]

/-- 40_step_and_operands.md R87: codes 0x20 to 0x3f, value `code - 0x20`, no memory access. -/
def Obligations.ShortLiteralResolves : Prop :=
  ∀ (c : BitVec 6) (s : State), 0x20 ≤ c.toNat →
    resolve (.ofCode c) s =
      { value := BitVec.ofNat 16 (c.toNat - 0x20), target := .none, state := s } ∧
    resolvePort (.ofCode c) s = []

/-- 40_step_and_operands.md R75: for every code, the side effects are exactly those on PC and SP, and
the value is the content of the named place after the code's own pre-decrement and before its own
post-increment. At PUSH, code 0x1a, that value is decision D9 (R81, log 9). -/
def Obligations.ResolverSideEffects : Prop :=
  ∀ (c : BitVec 6) (s : State),
    let r := resolve (.ofCode c) s
    r.state.regs = s.regs ∧ r.state.o = s.o ∧ r.state.mem = s.mem ∧
    r.state.pc = (if codeExtra c = 1 then s.pc + 1 else s.pc) ∧
    r.state.sp = (if c = 0x18 then s.sp + 1 else if c = 0x1a then s.sp - 1 else s.sp) ∧
    (∀ v, readTarget r.target s = some v → r.value = v)

/-- 40_step_and_operands.md R89: a is resolved whole, side effects included, before b, and each value is
captured when it is resolved (capture: D10, log 10). -/
def Obligations.OperandAIsResolvedBeforeB : Prop :=
  ∀ (a b : Operand) (s : State),
    (resolve2 a b s).av = (resolve a s).value ∧ (resolve2 a b s).dst = (resolve a s).target ∧
    (resolve2 a b s).bv = (resolve b (resolve a s).state).value ∧
    (resolve2 a b s).state = (resolve b (resolve a s).state).state

/-! ## Write-back -/

/-- 40_step_and_operands.md R90 and R74: a write-back makes its target hold the value, leaves every
other place alone, and does nothing for the unwritable target. -/
def Obligations.WriteBackChangesOnlyItsTarget : Prop :=
  ∀ (t : Target) (v : Word) (s : State),
    (t ≠ .none → readTarget t (writeTarget t v s) = some v) ∧
    (∀ u : Target, u ≠ t → readTarget u (writeTarget t v s) = readTarget u s) ∧
    writeTarget .none v s = s

/-- 40_step_and_operands.md R91: a writing instruction whose operand a is a literal completes with the
side effects of both resolutions and drops the result only: an O-writing instruction still writes O from
the two values, a's being the literal (41_set_arith.md R101 to R104, 42_shift_logic.md R110, R111; exact
intermediates: D11, log 11). The part after the source's sentence is marked derived in R91; O untouched by
the other five is D4 (log 4). -/
def Obligations.LiteralDestinationDropsTheResult : Prop :=
  ∀ (i : Instr) (a b : Operand) (s : State), writingOperands i = some (a, b) →
    (a = .nextLit ∨ ∃ v, a = .lit v) →
    let r := resolve2 a b s
    (a = .nextLit → r.av = s.readMem s.pc) ∧ (∀ v, a = .lit v → r.av.toNat = v.toNat) ∧
    ∃ t, exec i s = .next t ∧ t.regs = s.regs ∧ t.mem = s.mem ∧
      t.sp = r.state.sp ∧ t.pc = r.state.pc ∧
      (writesO i = false → t.o = s.o) ∧
      (i = .add a b → t.o = if r.av.toNat + r.bv.toNat > 65535 then 1 else 0) ∧
      (i = .sub a b → t.o = if r.av.toNat < r.bv.toNat then 0xFFFF else 0) ∧
      (i = .mul a b → t.o.toNat = r.av.toNat * r.bv.toNat / 65536) ∧
      (i = .div a b →
        t.o.toNat = if r.bv = 0 then 0 else r.av.toNat * 65536 / r.bv.toNat % 65536) ∧
      (i = .shl a b → t.o.toNat = r.av.toNat * 2 ^ r.bv.toNat / 65536 % 65536) ∧
      (i = .shr a b → t.o.toNat = r.av.toNat * 65536 / 2 ^ r.bv.toNat % 65536)

/-! ## The eleven writing instructions -/

/-- SET, 41_set_arith.md R100: b's value goes to a's target, and nothing else after the resolutions
(O untouched: D4, log 4). -/
def Obligations.SetCompletes : Prop :=
  ∀ (a b : Operand) (s : State),
    let r := resolve2 a b s
    exec (.set a b) s = .next (writeTarget r.dst r.bv r.state)

/-- ADD, 41_set_arith.md R101: the sum modulo 65536 goes to a's target, the carry to O. O is written
after the target (D5, log 5), which shows where a is O. -/
def Obligations.AddCompletes : Prop :=
  ∀ (a b : Operand) (s : State),
    let r := resolve2 a b s
    ∃ v o : Word, exec (.add a b) s = .next ((writeTarget r.dst v r.state).setO o) ∧
      v.toNat = (r.av.toNat + r.bv.toNat) % 65536 ∧
      o = (if r.av.toNat + r.bv.toNat > 65535 then 1 else 0) ∧
      v.toNat + 65536 * o.toNat = r.av.toNat + r.bv.toNat

/-- SUB, 41_set_arith.md R102: the difference modulo 65536 goes to a's target; O is 0xFFFF exactly when
a is below b as unsigned numbers. O is written after the target (D5, log 5). -/
def Obligations.SubCompletes : Prop :=
  ∀ (a b : Operand) (s : State),
    let r := resolve2 a b s
    ∃ v o : Word, exec (.sub a b) s = .next ((writeTarget r.dst v r.state).setO o) ∧
      (v.toNat : Int) = ((r.av.toNat : Int) - r.bv.toNat) % 65536 ∧
      o = (if r.av.toNat < r.bv.toNat then 0xFFFF else 0)

/-- MUL, 41_set_arith.md R103: the two halves of the exact product. O is written after the target (D5,
log 5). -/
def Obligations.MulCompletes : Prop :=
  ∀ (a b : Operand) (s : State),
    let r := resolve2 a b s
    ∃ v o : Word, exec (.mul a b) s = .next ((writeTarget r.dst v r.state).setO o) ∧
      v.toNat = r.av.toNat * r.bv.toNat % 65536 ∧
      o.toNat = r.av.toNat * r.bv.toNat / 65536

/-- DIV, 41_set_arith.md R104: 0 and 0 for a zero divisor; otherwise the floor of the quotient and the
first 16 bits of its fraction, all unsigned (D11, log 11). O is written after the target (D5, log 5). -/
def Obligations.DivCompletes : Prop :=
  ∀ (a b : Operand) (s : State),
    let r := resolve2 a b s
    ∃ v o : Word, exec (.div a b) s = .next ((writeTarget r.dst v r.state).setO o) ∧
      if r.bv = 0 then v = 0 ∧ o = 0
      else v.toNat = r.av.toNat / r.bv.toNat ∧
        v.toNat * 65536 + o.toNat = r.av.toNat * 65536 / r.bv.toNat

/-- MOD, 41_set_arith.md R105: 0 for a zero divisor, otherwise the unsigned remainder; O untouched on
both branches (D4, log 4). -/
def Obligations.ModCompletes : Prop :=
  ∀ (a b : Operand) (s : State),
    let r := resolve2 a b s
    ∃ v : Word, exec (.mod a b) s = .next (writeTarget r.dst v r.state) ∧
      if r.bv = 0 then v = 0
      else v.toNat < r.bv.toNat ∧
        (r.av.toNat / r.bv.toNat) * r.bv.toNat + v.toNat = r.av.toNat

/-- SHL, 42_shift_logic.md R110 in its closed form, for the whole 16-bit count; counts of 32 and more
are decision D11 (log 11). O is written after the target (D5, log 5). -/
def Obligations.ShlCompletes : Prop :=
  ∀ (a b : Operand) (s : State),
    let r := resolve2 a b s
    ∃ v o : Word, exec (.shl a b) s = .next ((writeTarget r.dst v r.state).setO o) ∧
      if r.bv.toNat ≤ 15 then
        v.toNat = r.av.toNat * 2 ^ r.bv.toNat % 65536 ∧ o.toNat = r.av.toNat / 2 ^ (16 - r.bv.toNat)
      else if r.bv.toNat ≤ 31 then
        v = 0 ∧ o.toNat = r.av.toNat * 2 ^ (r.bv.toNat - 16) % 65536
      else v = 0 ∧ o = 0

/-- SHR, 42_shift_logic.md R111 in its closed form, for the whole 16-bit count; counts of 32 and more
are decision D11 (log 11). O is written after the target (D5, log 5). -/
def Obligations.ShrCompletes : Prop :=
  ∀ (a b : Operand) (s : State),
    let r := resolve2 a b s
    ∃ v o : Word, exec (.shr a b) s = .next ((writeTarget r.dst v r.state).setO o) ∧
      if r.bv.toNat ≤ 15 then
        v.toNat = r.av.toNat / 2 ^ r.bv.toNat ∧
          o.toNat = r.av.toNat * 2 ^ (16 - r.bv.toNat) % 65536
      else if r.bv.toNat ≤ 31 then
        v = 0 ∧ o.toNat = r.av.toNat / 2 ^ (r.bv.toNat - 16)
      else v = 0 ∧ o = 0

/-- AND, BOR, XOR, 42_shift_logic.md R112, R113, R114, bit by bit; O untouched (D4, log 4). -/
def Obligations.BitwiseInstructionsComplete : Prop :=
  ∀ (a b : Operand) (s : State),
    let r := resolve2 a b s
    (∃ v : Word, exec (.and a b) s = .next (writeTarget r.dst v r.state) ∧
      ∀ k < 16, v.getLsbD k = (r.av.getLsbD k && r.bv.getLsbD k)) ∧
    (∃ v : Word, exec (.bor a b) s = .next (writeTarget r.dst v r.state) ∧
      ∀ k < 16, v.getLsbD k = (r.av.getLsbD k || r.bv.getLsbD k)) ∧
    (∃ v : Word, exec (.xor a b) s = .next (writeTarget r.dst v r.state) ∧
      ∀ k < 16, v.getLsbD k = (r.av.getLsbD k ^^ r.bv.getLsbD k))

/-- The frame of the eleven writing instructions (10_state.md R12, R14, R18; 20_memory.md R45): every
general register but the destination, SP but for POP, PUSH or SP as destination, O but for the six
O-writing instructions or O as destination (D4, log 4), and every cell but the one stored to. -/
def Obligations.WritingInstructionsFrame : Prop :=
  ∀ (i : Instr) (a b : Operand) (s t : State), writingOperands i = some (a, b) → exec i s = .next t →
    (∀ q : Reg, (resolve a s).target ≠ .reg q → t.readReg q = s.readReg q) ∧
    ((resolve a s).target ≠ .sp → t.sp = (resolve2 a b s).state.sp) ∧
    ((resolve a s).target ≠ .sp → movesSp a = false → movesSp b = false → t.sp = s.sp) ∧
    ((resolve a s).target ≠ .o → writesO i = false → t.o = s.o) ∧
    (∀ k : Word, storeAddr i s ≠ some k → t.readMem k = s.readMem k)

/-! ## The conditionals and the skip -/

/-- IFE, 43_conditional_skip.md R120, R127: equal values pass, others skip the next instruction in the
same step (D6, log 6); nothing else is written (O: D4, log 4). -/
def Obligations.IfeCompletes : Prop :=
  ∀ (a b : Operand) (s : State),
    let r := resolve2 a b s
    exec (.ife a b) s = .next (if r.av = r.bv then r.state else skip r.state)

/-- IFN, 43_conditional_skip.md R121, R127 (D4, D6; log 4, log 6). -/
def Obligations.IfnCompletes : Prop :=
  ∀ (a b : Operand) (s : State),
    let r := resolve2 a b s
    exec (.ifn a b) s = .next (if r.av = r.bv then skip r.state else r.state)

/-- IFG, 43_conditional_skip.md R122, R127: strictly greater as unsigned numbers (D4, D6; log 4,
log 6). -/
def Obligations.IfgCompletes : Prop :=
  ∀ (a b : Operand) (s : State),
    let r := resolve2 a b s
    exec (.ifg a b) s = .next (if r.bv.toNat < r.av.toNat then r.state else skip r.state)

/-- IFB, 43_conditional_skip.md R123, R127: at least one 1 bit in common (D4, D6; log 4, log 6). -/
def Obligations.IfbCompletes : Prop :=
  ∀ (a b : Operand) (s : State),
    let r := resolve2 a b s
    ((∃ k < 16, r.av.getLsbD k = true ∧ r.bv.getLsbD k = true) → exec (.ifb a b) s = .next r.state) ∧
    ((∀ k < 16, r.av.getLsbD k = false ∨ r.bv.getLsbD k = false) →
      exec (.ifb a b) s = .next (skip r.state))

/-- The frame of the four conditionals, pass or skip (43_conditional_skip.md R127): general registers,
O (D4, log 4) and all of memory are unchanged; SP moves only with a POP or PUSH operand of the
conditional or of the skipped instruction. -/
def Obligations.ConditionalsFrame : Prop :=
  ∀ (i : Instr) (a b : Operand) (s t : State), testingOperands i = some (a, b) → exec i s = .next t →
    t.regs = s.regs ∧ t.o = s.o ∧ (∀ k : Word, t.readMem k = s.readMem k) ∧
    (movesSp a = false → movesSp b = false →
      (∀ x ∈ (decode (s.readMem (resolve2 a b s).state.pc)).operands, movesSp x = false) →
      t.sp = s.sp)

/-- 43_conditional_skip.md R125: the skip fetches the next word and resolves its operands, a before b,
with the same NextWord and Resolve; no register, O or memory cell is written. -/
def Obligations.SkipResolvesAndDispatchesNothing : Prop :=
  ∀ s : State,
    (∀ o a b, fieldsOf (s.readMem s.pc) = .basic o a b →
      skip s = (resolve (.ofCode b) (resolve (.ofCode a) (nextWord s).2).state).state) ∧
    (∀ n a, fieldsOf (s.readMem s.pc) = .nonBasic n a →
      skip s = (resolve (.ofCode a) (nextWord s).2).state) ∧
    (skip s).regs = s.regs ∧ (skip s).o = s.o ∧ (skip s).mem = s.mem

/-- 43_conditional_skip.md R126 and 30_encoding.md R60: exactly one instruction is consumed, recognized
or not, conditional or not (no chaining: D7, log 7): PC moves by that instruction's length. -/
def Obligations.SkipConsumesExactlyOneInstruction : Prop :=
  ∀ s : State,
    (skip s).pc.toNat = (s.pc.toNat + wordLength (s.readMem s.pc)) % 65536 ∧
    skip s = resolveAll (decode (s.readMem s.pc)).operands (nextWord s).2

/-! ## Non-basic words and the decode fault -/

/-- JSR, 44_jsr_nonbasic.md R130, with its frame: a is resolved first; SP is decremented; the cell at
the new SP holds PC past the JSR's words; PC takes a's value; all else is unchanged (O: D4, log 4). -/
def Obligations.JsrCompletes : Prop :=
  ∀ (a : Operand) (s : State),
    let r := resolve a s
    ∃ t, exec (.jsr a) s = .next t ∧ t.pc = r.value ∧ t.sp = r.state.sp - 1 ∧
      storeAddr (.jsr a) s = some t.sp ∧ t.readMem t.sp = r.state.pc ∧
      t.regs = s.regs ∧ t.o = s.o ∧
      (∀ k : Word, storeAddr (.jsr a) s ≠ some k → t.readMem k = s.readMem k)

/-- The stop of an unrecognized word, 44_jsr_nonbasic.md R132: the decode fault with the word, after
operand a is resolved; no register, O or memory write (resolution before the report: D8, log 8). Two things
here are the model's choices and no rule of the spec: the fault carries the state the step leaves (log 27),
and the ill-formed term with n = 0x01, which the decoder never gives, faults like the others (log 31). -/
def Obligations.UnrecognizedWordStopsWithDecodeFault : Prop :=
  ∀ (n : BitVec 6) (a : Operand) (s : State),
    exec (.unrecognized n a) s =
      .fault (.decodeFault (encode (.unrecognized n a)) (resolve a s).state) ∧
    (resolve a s).state.regs = s.regs ∧ (resolve a s).state.o = s.o ∧
    (resolve a s).state.mem = s.mem

/-- 44_jsr_nonbasic.md R132 and 60_exceptions.md R142 as a whole step: the fault carries the word fetched,
and the state it leaves is precise (D8, log 8, log 27). -/
def Obligations.FaultingStepIsPrecise : Prop :=
  ∀ s : State, unrecognizedWord (s.readMem s.pc) = true →
    step s = .fault (.decodeFault (s.readMem s.pc)
      (resolve (.ofCode ((s.readMem s.pc).extractLsb' 10 6)) (nextWord s).2).state)

/-- 60_exceptions.md R140 and R143: a step faults exactly on the unrecognized words of 30_encoding.md
R58, answers a next state on every other word, and is never refused (which words: D1, D2; log 1,
log 2; a skipped word never faults: D7, log 7). -/
def Obligations.OnlyUnrecognizedWordsFault : Prop :=
  ∀ s : State,
    ((∃ f, step s = .fault f) ↔ unrecognizedWord (s.readMem s.pc) = true) ∧
    ((∃ t, step s = .next t) ↔ unrecognizedWord (s.readMem s.pc) = false) ∧
    (∀ r, step s ≠ .refused r)

/-- The caller's two policies after a fault, which differ only where a fault is reported (60_exceptions.md
R145, R147; 70_reset_and_hazards.md R166; on_fault: D18, log 18; end of run: D22, log 22), whatever the host
does between the steps. That the state to go on from is carried by the fault is the model's choice (log 27). -/
def Obligations.CallerHaltsOrGoesOnAfterFault : Prop :=
  (∀ (s t : State) (w : Word) (rest : List HostMove), step s = .fault (.decodeFault w t) →
    runMoves .halt (.step :: rest) s = .finishedWithFault w t ∧
    runMoves .resume (.step :: rest) s = runMoves .resume rest t) ∧
  (∀ (moves : List HostMove) (s : State),
    (∃ t, runMoves .resume moves s = .stoppedByHost t) ∧
    (runMoves .halt moves s = runMoves .resume moves s ∨
      ∃ w t, runMoves .halt moves s = .finishedWithFault w t)) ∧
  (∀ (s : State) (k : Nat), noFaultReported k s = true →
    ∃ t, runUnder .halt k s = .stoppedByHost t ∧ runUnder .resume k s = .stoppedByHost t)

/-- 70_reset_and_hazards.md R165 (3) and 10_state.md R27, R28 (what the host may do: D17, log 17; its moves as a
list: log 36): a run may be cut between any two moves; the host's writes change memory cells and nothing
else; the next step fetches what they wrote (20_memory.md R42); the host reads one result for each call of
`step`, and under `halt` (D18, log 18) the one fault is the last of them. -/
def Obligations.HostActsBetweenSteps : Prop :=
  (∀ (p : Config.OnFault) (first rest : List HostMove) (s t : State),
    runMoves p first s = .stoppedByHost t → runMoves p (first ++ rest) s = runMoves p rest t) ∧
  (∀ (p : Config.OnFault) (first rest : List HostMove) (s t : State) (w : Word),
    runMoves p first s = .finishedWithFault w t →
      runMoves p (first ++ rest) s = .finishedWithFault w t) ∧
  (∀ (p : Config.OnFault) (image : Config.Image) (s : State),
    ∃ t, runMoves p (image.map fun cell => .write cell.1 cell.2) s = .stoppedByHost t ∧
      t.regs = s.regs ∧ t.o = s.o ∧ t.pc = s.pc ∧ t.sp = s.sp ∧
      ∀ k : Word, t.readMem k = (image.reverse.lookup k).getD (s.readMem k)) ∧
  (∀ (p : Config.OnFault) (v : Word) (rest : List HostMove) (s t : State),
    exec (decode v) ((hostWrite s s.pc v).setPc (s.pc + 1)) = .next t →
      runMoves p (.write s.pc v :: .step :: rest) s = runMoves p rest t) ∧
  (∀ (moves : List HostMove) (s : State),
    (resultsRead .resume moves s).length = moves.count .step) ∧
  (∀ (moves : List HostMove) (s t : State) (w : Word),
    runMoves .halt moves s = .finishedWithFault w t →
      ∃ n, resultsRead .halt moves s = List.replicate n .ok ++ [.fault w])

/-! ## The step and the whole machine -/

/-- 40_step_and_operands.md R70, R71: the step runs the instruction the word at PC decodes to, on the
state whose PC is one past that word (fetch increment: D16, log 16). -/
def Obligations.StepRunsTheDecodedInstruction : Prop :=
  ∀ (s : State) (i : Instr), decode (s.readMem s.pc) = i → step s = exec i (s.setPc (s.pc + 1))

/-- 40_step_and_operands.md R73 (marked derived): what one step may change in total. At most the cell
stored to; at most one general register, and then no cell; O only by an O-writing instruction or as
destination; SP only by JSR, POP, PUSH (of the instruction or of one it skips) or as destination. -/
def Obligations.StepChangesAtMost : Prop :=
  ∀ s t : State, step s = .next t →
    let i := decode (s.readMem s.pc)
    let s1 := (nextWord s).2
    (∀ k : Word, storeAddr i s1 ≠ some k → t.readMem k = s.readMem k) ∧
    (∀ p q : Reg, t.readReg p ≠ s.readReg p → t.readReg q ≠ s.readReg q → p = q) ∧
    (∀ (p : Reg) (k : Word), t.readReg p ≠ s.readReg p → t.readMem k = s.readMem k) ∧
    (t.o ≠ s.o → writesO i = true ∨ ∃ b, writingOperands i = some (.o, b)) ∧
    (t.sp ≠ s.sp →
      (∃ a, i = .jsr a) ∨ (∃ b, writingOperands i = some (.sp, b)) ∨
      (∃ x ∈ i.operands, movesSp x = true) ∨
      (skips i s1 = true ∧
        ∃ x ∈ (decode (s1.readMem (resolveAll i.operands s1).pc)).operands, movesSp x = true))

/-- 20_memory.md R37 and R46: every address the core computes is reduced modulo 65536, and no access
faults: a fault comes from an unrecognized instruction only (60_exceptions.md R140, R143). That this is the
instruction at PC itself and never a skipped one is decision D7 (43_conditional_skip.md R126, log 7). -/
def Obligations.AddressesWrapAndNeverFault : Prop :=
  ∀ s : State,
    (∀ r : Reg, (resolve (.regIdx r) s).target =
      .mem (BitVec.ofNat 16 (((s.readReg r).toNat + (s.readMem s.pc).toNat) % 65536))) ∧
    (nextWord s).2.pc.toNat = (s.pc.toNat + 1) % 65536 ∧
    (resolve .pop s).state.sp.toNat = (s.sp.toNat + 1) % 65536 ∧
    (resolve .push s).state.sp.toNat = (s.sp.toNat + 65535) % 65536 ∧
    (pushWord s.pc s).sp.toNat = (s.sp.toNat + 65535) % 65536 ∧
    (∀ f, step s = .fault f → ∃ n a, decode (s.readMem s.pc) = .unrecognized n a)

/-- 20_memory.md R42 (marked derived): a word stored by any storing instruction, the eleven writing ones
and JSR's push, or by the host between steps, is what any later fetch and any later extra-word read at that
address gives, with nothing in between. -/
def Obligations.StoreIsSeenByTheNextFetch : Prop :=
  (∀ (i : Instr) (s : State) (k : Word), storeAddr i s = some k →
    ∃ t v, exec i s = .next t ∧ writtenWord i s = some v ∧
      ∀ u : State, u.mem = t.mem → u.pc = k → fetchesWord u v) ∧
  (∀ (s u : State) (k v : Word), u.mem = (hostWrite s k v).mem → u.pc = k → fetchesWord u v)

/-- 95_test_vectors.md S8: a push followed by a pop into a register gives that register the pushed value
and restores SP, for every source that does not itself move SP. -/
def Obligations.PushThenPopRestores : Prop :=
  ∀ (b : Operand) (q : Reg) (s : State), movesSp b = false →
    ∃ t u, exec (.set .push b) s = .next t ∧ exec (.set (.reg q) .pop) t = .next u ∧
      t.sp = s.sp - 1 ∧ t.readMem t.sp = (resolve2 .push b s).bv ∧
      u.readReg q = (resolve2 .push b s).bv ∧ u.sp = s.sp

/-- 44_jsr_nonbasic.md R131 (marked derived): `SET PC, POP`, run in any state that has SP and memory as
the JSR left them, goes to the instruction after the JSR and gives back the SP the JSR found. -/
def Obligations.ReturnGoesBackPastTheCall : Prop :=
  ∀ (a : Operand) (s t u : State), exec (.jsr a) s = .next t → u.sp = t.sp → u.mem = t.mem →
    ∃ v, exec (.set .pc .pop) u = .next v ∧
      v.pc = (resolve a s).state.pc ∧ v.sp = (resolve a s).state.sp

/-- 70_reset_and_hazards.md R169 (d) (marked derived): `ADD PC, w:n` lands at its own address + 1 + n,
because operand a is captured before b's word is consumed (D10, log 10). -/
def Obligations.AddToPcCountsFromTheNextWord : Prop :=
  ∀ s : State, decode (s.readMem s.pc) = .add .pc .nextLit →
    ∃ t, step s = .next t ∧ t.pc = s.pc + 1 + s.readMem (s.pc + 1)

/-! ## The memory port -/

/-- 10_state.md R26 and 20_memory.md R45 (marked derived there): a step makes at most 10 reads and at most
1 write, never both a skip's reads and a write; its reads start at PC and take in all words of the
instruction, and of the one it skips, in order of address (a before b: D14, log 14). The accesses are
computed beside the step and are no part of its answer (log 33). -/
def Obligations.PortMakesAtMostTenReadsAndOneWrite : Prop :=
  ∀ s : State,
    let w := s.readMem s.pc
    let skipping := skips (decode w) (nextWord s).2
    (stepReads s).length ≤ 10 ∧ (stepWrites s).length ≤ 1 ∧
    (skipping = true → stepWrites s = []) ∧
    (stepReads s).head? = some (.read s.pc w) ∧
    (wordReads (wordLength w +
      if skipping then wordLength (s.readMem (s.pc + BitVec.ofNat 16 (wordLength w))) else 0)
      s).Sublist (stepReads s) ∧
    (stepWrites s).map (fun x => match x with | .read k _ => k | .write k _ => k) =
      (storeAddr (decode w) (nextWord s).2).toList

/-- 20_memory.md R39 and R40 (marked derived): every read of a step gives what the cell held before the
step, and the accesses, replayed in order, give the memory after it. -/
def Obligations.PortAccessesAccountForMemory : Prop :=
  ∀ s t : State, step s = .next t →
    (∀ k v : Word, Access.read k v ∈ portTrace s → v = s.readMem k) ∧
    (∀ k v : Word, Access.write k v ∈ portTrace s → v = t.readMem k) ∧
    (∀ k : Nat, k < 65536 → (replay (portTrace s) s.mem).read k = t.mem.read k)
end

