-- ==== Sys2Proof/Laws/State.lean ====
section
/-! SUPPORT. One lemma per field per update of the state, and the register file's read after write. -/

namespace Sys2Proof.Machine

/-! ## Fields after an update -/

@[simp] theorem State.setPc_regs (s : State) (v : Word) : (s.setPc v).regs = s.regs := rfl
@[simp] theorem State.setPc_o (s : State) (v : Word) : (s.setPc v).o = s.o := rfl
@[simp] theorem State.setPc_pc (s : State) (v : Word) : (s.setPc v).pc = v := rfl
@[simp] theorem State.setPc_sp (s : State) (v : Word) : (s.setPc v).sp = s.sp := rfl
@[simp] theorem State.setPc_mem (s : State) (v : Word) : (s.setPc v).mem = s.mem := rfl

@[simp] theorem State.setSp_regs (s : State) (v : Word) : (s.setSp v).regs = s.regs := rfl
@[simp] theorem State.setSp_o (s : State) (v : Word) : (s.setSp v).o = s.o := rfl
@[simp] theorem State.setSp_pc (s : State) (v : Word) : (s.setSp v).pc = s.pc := rfl
@[simp] theorem State.setSp_sp (s : State) (v : Word) : (s.setSp v).sp = v := rfl
@[simp] theorem State.setSp_mem (s : State) (v : Word) : (s.setSp v).mem = s.mem := rfl

@[simp] theorem State.setO_regs (s : State) (v : Word) : (s.setO v).regs = s.regs := rfl
@[simp] theorem State.setO_o (s : State) (v : Word) : (s.setO v).o = v := rfl
@[simp] theorem State.setO_pc (s : State) (v : Word) : (s.setO v).pc = s.pc := rfl
@[simp] theorem State.setO_sp (s : State) (v : Word) : (s.setO v).sp = s.sp := rfl
@[simp] theorem State.setO_mem (s : State) (v : Word) : (s.setO v).mem = s.mem := rfl

@[simp] theorem State.writeReg_regs (s : State) (r : Reg) (v : Word) :
    (s.writeReg r v).regs = s.regs.write r v := rfl
@[simp] theorem State.writeReg_o (s : State) (r : Reg) (v : Word) : (s.writeReg r v).o = s.o := rfl
@[simp] theorem State.writeReg_pc (s : State) (r : Reg) (v : Word) : (s.writeReg r v).pc = s.pc := rfl
@[simp] theorem State.writeReg_sp (s : State) (r : Reg) (v : Word) : (s.writeReg r v).sp = s.sp := rfl
@[simp] theorem State.writeReg_mem (s : State) (r : Reg) (v : Word) :
    (s.writeReg r v).mem = s.mem := rfl

@[simp] theorem State.writeMem_regs (s : State) (k v : Word) : (s.writeMem k v).regs = s.regs := rfl
@[simp] theorem State.writeMem_o (s : State) (k v : Word) : (s.writeMem k v).o = s.o := rfl
@[simp] theorem State.writeMem_pc (s : State) (k v : Word) : (s.writeMem k v).pc = s.pc := rfl
@[simp] theorem State.writeMem_sp (s : State) (k v : Word) : (s.writeMem k v).sp = s.sp := rfl
@[simp] theorem State.writeMem_mem (s : State) (k v : Word) :
    (s.writeMem k v).mem = s.mem.write k.toNat v := rfl

@[simp] theorem nextWord_value (s : State) : (nextWord s).1 = s.readMem s.pc := rfl
@[simp] theorem nextWord_state (s : State) : (nextWord s).2 = s.setPc (s.pc + 1) := rfl

/-! ## Reading a register or a cell after an update of another field -/

@[simp] theorem State.setPc_readReg (s : State) (v : Word) (r : Reg) :
    (s.setPc v).readReg r = s.readReg r := rfl
@[simp] theorem State.setSp_readReg (s : State) (v : Word) (r : Reg) :
    (s.setSp v).readReg r = s.readReg r := rfl
@[simp] theorem State.setO_readReg (s : State) (v : Word) (r : Reg) :
    (s.setO v).readReg r = s.readReg r := rfl
@[simp] theorem State.writeMem_readReg (s : State) (k v : Word) (r : Reg) :
    (s.writeMem k v).readReg r = s.readReg r := rfl

@[simp] theorem State.setPc_readMem (s : State) (v k : Word) :
    (s.setPc v).readMem k = s.readMem k := rfl
@[simp] theorem State.setSp_readMem (s : State) (v k : Word) :
    (s.setSp v).readMem k = s.readMem k := rfl
@[simp] theorem State.setO_readMem (s : State) (v k : Word) :
    (s.setO v).readMem k = s.readMem k := rfl
@[simp] theorem State.writeReg_readMem (s : State) (r : Reg) (v k : Word) :
    (s.writeReg r v).readMem k = s.readMem k := rfl

/-! ## The register file -/

@[simp] theorem RegFile.read_write_same (f : RegFile) (r : Reg) (v : Word) :
    (f.write r v).read r = v := by
  cases r <;> rfl

theorem RegFile.read_write_other (f : RegFile) {r q : Reg} (v : Word) (h : q ≠ r) :
    (f.write r v).read q = f.read q := by
  cases r <;> cases q <;> first | rfl | exact absurd rfl h

@[simp] theorem State.readReg_writeReg_same (s : State) (r : Reg) (v : Word) :
    (s.writeReg r v).readReg r = v :=
  RegFile.read_write_same s.regs r v

theorem State.readReg_writeReg_other (s : State) {r q : Reg} (v : Word) (h : q ≠ r) :
    (s.writeReg r v).readReg q = s.readReg q :=
  RegFile.read_write_other s.regs v h

end Sys2Proof.Machine
end

