-- ==== Sys2Proof/Laws/Memory.lean ====
section
/-! SUPPORT. Memory: read after write, for every list of cells, and that a write keeps the canonical
form. -/

namespace Sys2Proof.Machine

/-! ## Reading after a write -/

theorem Memory.read_insert (m : Memory) (k j : Nat) (v : Word) (h : ∀ c ∈ m, c.1 ≠ k) :
    (Memory.insert k v m).read j = if k = j then v else m.read j := by
  induction m with
  | nil => rfl
  | cons c m ih =>
    have hc : c.1 ≠ k := h c (by simp)
    have ih := ih (fun d hd => h d (by simp [hd]))
    unfold Memory.insert
    split
    · rfl
    · show (if c.1 = j then c.2 else (Memory.insert k v m).read j) = _
      rw [ih]
      by_cases hj : c.1 = j
      · subst hj
        simp [Memory.read, Ne.symm hc]
      · simp [Memory.read, hj]

theorem Memory.read_erase (m : Memory) (k j : Nat) :
    (m.erase k).read j = if k = j then 0 else m.read j := by
  induction m with
  | nil => simp [Memory.erase, Memory.read]
  | cons c m ih =>
    by_cases hc : c.1 = k
    · have he : Memory.erase (c :: m) k = Memory.erase m k := by simp [Memory.erase, hc]
      rw [he, ih]
      by_cases hj : k = j
      · simp [hj]
      · simp [hj, Memory.read, hc]
    · have he : Memory.erase (c :: m) k = c :: Memory.erase m k := by simp [Memory.erase, hc]
      rw [he]
      show (if c.1 = j then c.2 else (Memory.erase m k).read j) = _
      rw [ih]
      by_cases hj : c.1 = j
      · subst hj
        simp [Memory.read, Ne.symm hc]
      · simp [Memory.read, hj]

/-- Everything a write does to what reads see. -/
theorem Memory.read_write (m : Memory) (k j : Nat) (v : Word) :
    (m.write k v).read j = if k = j then v else m.read j := by
  unfold Memory.write
  split
  · next hv => rw [Memory.read_erase, hv]
  · rw [Memory.read_insert _ _ _ _ (by simp [Memory.erase]), Memory.read_erase]
    split <;> rfl

/-- Everything a store does to what reads see (20_memory.md R35, R39). -/
theorem State.readMem_writeMem (s : State) (k j v : Word) :
    (s.writeMem k v).readMem j = if k = j then v else s.readMem j := by
  show (s.mem.write k.toNat v).read j.toNat = _
  rw [Memory.read_write]
  by_cases h : k = j
  · simp [h]
  · have hn : k.toNat ≠ j.toNat := fun e => h (BitVec.eq_of_toNat_eq e)
    rw [if_neg hn, if_neg h, State.readMem]

@[simp] theorem State.readMem_writeMem_same (s : State) (k v : Word) :
    (s.writeMem k v).readMem k = v := by
  simp [State.readMem_writeMem]

theorem State.readMem_writeMem_other (s : State) {k j : Word} (v : Word) (h : j ≠ k) :
    (s.writeMem k v).readMem j = s.readMem j := by
  simp [State.readMem_writeMem, Ne.symm h]

/-! ## The canonical form -/

theorem Memory.mem_insert (m : Memory) (k : Nat) (v : Word) (c : WordCell)
    (h : c ∈ Memory.insert k v m) : c = (k, v) ∨ c ∈ m := by
  induction m with
  | nil => exact .inl (by simpa [Memory.insert] using h)
  | cons d m ih =>
    unfold Memory.insert at h
    split at h
    · simpa using h
    · rcases List.mem_cons.1 h with h | h
      · simp [h]
      · exact (ih h).imp id (fun h => by simp [h])

theorem Memory.pairwise_insert (m : Memory) (k : Nat) (v : Word)
    (hp : m.Pairwise (fun p q => p.1 < q.1)) (hk : ∀ c ∈ m, c.1 ≠ k) :
    (Memory.insert k v m).Pairwise (fun p q => p.1 < q.1) := by
  induction m with
  | nil => simp [Memory.insert]
  | cons d m ih =>
    have hd := List.pairwise_cons.1 hp
    unfold Memory.insert
    split
    · next hlt =>
      refine List.pairwise_cons.2 ⟨fun c hc => ?_, hp⟩
      rcases List.mem_cons.1 hc with h | h
      · rw [h]; exact hlt
      · exact lt_trans hlt (hd.1 c h)
    · next hlt =>
      have hne := hk d (by simp)
      refine List.pairwise_cons.2 ⟨fun c hc => ?_, ih hd.2 (fun c hc => hk c (by simp [hc]))⟩
      rcases Memory.mem_insert m k v c hc with h | h
      · rw [h]; show d.1 < k; omega
      · exact hd.1 c h

theorem Memory.wf_erase (m : Memory) (k : Nat) (h : m.wf) : (m.erase k).wf :=
  ⟨h.1.filter _, fun c hc => h.2 c (List.mem_filter.1 hc).1⟩

/-- A write keeps the canonical form. -/
theorem Memory.wf_write (m : Memory) (k : Nat) (v : Word) (hk : k < 65536) (h : m.wf) :
    (m.write k v).wf := by
  unfold Memory.write
  split
  · exact Memory.wf_erase m k h
  · next hv =>
    have he := Memory.wf_erase m k h
    refine ⟨Memory.pairwise_insert _ k v he.1 (by simp [Memory.erase]), fun c hc => ?_⟩
    rcases Memory.mem_insert _ k v c hc with hc | hc
    · rw [hc]; exact ⟨hk, hv⟩
    · exact he.2 c hc

/-- Every memory operation of the state keeps the canonical form. -/
theorem State.wf_writeMem (s : State) (k v : Word) (h : s.wf) : (s.writeMem k v).wf :=
  Memory.wf_write s.mem k.toNat v k.isLt h

end Sys2Proof.Machine
end

