-- ==== Sys2Proof/Laws/Operands.lean ====
section
/-! SUPPORT. What the resolver, the write-back, the skip and JSR's push leave unchanged, and what each
shape of instruction answers. -/

namespace Sys2Proof.Machine

/-! ## The resolver writes no general register, O or memory -/

@[simp] theorem resolve_regs (x : Operand) (s : State) : (resolve x s).state.regs = s.regs := by
  cases x <;> rfl
@[simp] theorem resolve_o (x : Operand) (s : State) : (resolve x s).state.o = s.o := by
  cases x <;> rfl
@[simp] theorem resolve_mem (x : Operand) (s : State) : (resolve x s).state.mem = s.mem := by
  cases x <;> rfl
@[simp] theorem resolve_readReg (x : Operand) (s : State) (r : Reg) :
    (resolve x s).state.readReg r = s.readReg r := by
  simp [State.readReg]
@[simp] theorem resolve_readMem (x : Operand) (s : State) (k : Word) :
    (resolve x s).state.readMem k = s.readMem k := by
  simp [State.readMem]

/-- PC moves on by the extra words the operand consumes. -/
theorem resolve_pc (x : Operand) (s : State) :
    (resolve x s).state.pc = s.pc + BitVec.ofNat 16 x.extraWords := by
  cases x <;> simp [resolve, memResolved, Operand.extraWords]

@[simp] theorem resolve2_regs (a b : Operand) (s : State) : (resolve2 a b s).state.regs = s.regs := by
  simp [resolve2]
@[simp] theorem resolve2_o (a b : Operand) (s : State) : (resolve2 a b s).state.o = s.o := by
  simp [resolve2]
@[simp] theorem resolve2_mem (a b : Operand) (s : State) : (resolve2 a b s).state.mem = s.mem := by
  simp [resolve2]

/-! ## Write-back -/

/-- What a write-back does to every cell. -/
theorem readMem_writeTarget (t : Target) (v : Word) (s : State) (k : Word) :
    (writeTarget t v s).readMem k = if t = .mem k then v else s.readMem k := by
  cases t <;> simp [writeTarget, State.readMem_writeMem]

/-- What a write-back does to every general register. -/
theorem readReg_writeTarget (t : Target) (v : Word) (s : State) (q : Reg) :
    (writeTarget t v s).readReg q = if t = .reg q then v else s.readReg q := by
  cases t with
  | reg r =>
    by_cases h : r = q
    · simp [writeTarget, h]
    · simp [writeTarget, h, State.readReg_writeReg_other s v (Ne.symm h)]
  | _ => simp [writeTarget]

/-- What a write-back does to SP. -/
theorem sp_writeTarget (t : Target) (v : Word) (s : State) :
    (writeTarget t v s).sp = if t = .sp then v else s.sp := by
  cases t <;> simp [writeTarget]

/-- What a write-back does to PC. -/
theorem pc_writeTarget (t : Target) (v : Word) (s : State) :
    (writeTarget t v s).pc = if t = .pc then v else s.pc := by
  cases t <;> simp [writeTarget]

/-- What a write-back does to O. -/
theorem o_writeTarget (t : Target) (v : Word) (s : State) :
    (writeTarget t v s).o = if t = .o then v else s.o := by
  cases t <;> simp [writeTarget]

theorem wf_writeTarget (t : Target) (v : Word) (s : State) (h : s.wf) : (writeTarget t v s).wf := by
  cases t <;> first | exact h | exact State.wf_writeMem _ _ _ h

/-! ## The skip -/

@[simp] theorem skip_regs (s : State) : (skip s).regs = s.regs := by
  unfold skip; simp only; split <;> simp
@[simp] theorem skip_o (s : State) : (skip s).o = s.o := by
  unfold skip; simp only; split <;> simp
@[simp] theorem skip_mem (s : State) : (skip s).mem = s.mem := by
  unfold skip; simp only; split <;> simp

/-! ## JSR's push -/

theorem readMem_pushWord (v : Word) (s : State) (k : Word) :
    (pushWord v s).readMem k = if s.sp - 1 = k then v else s.readMem k := by
  simp [pushWord, State.readMem_writeMem]

@[simp] theorem pushWord_sp (v : Word) (s : State) : (pushWord v s).sp = s.sp - 1 := rfl
@[simp] theorem pushWord_regs (v : Word) (s : State) : (pushWord v s).regs = s.regs := rfl
@[simp] theorem pushWord_o (v : Word) (s : State) : (pushWord v s).o = s.o := rfl
@[simp] theorem pushWord_pc (v : Word) (s : State) : (pushWord v s).pc = s.pc := rfl

end Sys2Proof.Machine
end

