-- ==== Sys2Proof/Laws/PerInstr.lean ====
section
/-! SUPPORT. The per-instruction family `SizeBounds`: an instruction occupies its instruction word and
at most one extra word for each operand (30_encoding.md R50). -/

namespace Sys2Proof.Laws.SizeBounds

/-- "Instruction lengths are therefore 1, 2 or 3 words for a basic instruction and 1 or 2 words for a
non-basic one" (30_encoding.md R50): at least one word, at most one more for each operand. -/
def Statement (i : Instr) : Prop :=
  1 ≤ i.length ∧ i.length ≤ 1 + i.operands.length

theorem extraWords_le (x : Operand) : x.extraWords ≤ 1 := by
  cases x <;> simp [Operand.extraWords]

theorem two (i : Instr) (a b : Operand) (h : i.operands = [a, b]) : Statement i := by
  have ha := extraWords_le a
  have hb := extraWords_le b
  simp only [Statement, Instr.length, h, List.map_cons, List.map_nil, List.sum_cons, List.sum_nil,
    List.length_cons, List.length_nil]
  omega

theorem one (i : Instr) (a : Operand) (h : i.operands = [a]) : Statement i := by
  have ha := extraWords_le a
  simp only [Statement, Instr.length, h, List.map_cons, List.map_nil, List.sum_cons, List.sum_nil,
    List.length_cons, List.length_nil]
  omega

theorem set (a b : Operand) : Statement (.set a b) := two _ a b rfl
theorem add (a b : Operand) : Statement (.add a b) := two _ a b rfl
theorem sub (a b : Operand) : Statement (.sub a b) := two _ a b rfl
theorem mul (a b : Operand) : Statement (.mul a b) := two _ a b rfl
theorem div (a b : Operand) : Statement (.div a b) := two _ a b rfl
theorem mod (a b : Operand) : Statement (.mod a b) := two _ a b rfl
theorem shl (a b : Operand) : Statement (.shl a b) := two _ a b rfl
theorem shr (a b : Operand) : Statement (.shr a b) := two _ a b rfl
theorem and (a b : Operand) : Statement (.and a b) := two _ a b rfl
theorem bor (a b : Operand) : Statement (.bor a b) := two _ a b rfl
theorem xor (a b : Operand) : Statement (.xor a b) := two _ a b rfl
theorem ife (a b : Operand) : Statement (.ife a b) := two _ a b rfl
theorem ifn (a b : Operand) : Statement (.ifn a b) := two _ a b rfl
theorem ifg (a b : Operand) : Statement (.ifg a b) := two _ a b rfl
theorem ifb (a b : Operand) : Statement (.ifb a b) := two _ a b rfl
theorem jsr (a : Operand) : Statement (.jsr a) := one _ a rfl
theorem unrecognized (n : BitVec 6) (a : Operand) : Statement (.unrecognized n a) := one _ a rfl

end Sys2Proof.Laws.SizeBounds
end

