-- ==== Sys2Proof/Laws/Port.lean ====
section
/-! SUPPORT. What the store of an instruction does: `storeAddr` and `writtenWord` together say all that an
instruction changes in memory. -/

namespace Sys2Proof.Machine

@[simp] theorem wordReads_zero (s : State) : wordReads 0 s = [] := rfl
@[simp] theorem wordReads_succ (n : Nat) (s : State) :
    wordReads (n + 1) s = fetchPort s ++ wordReads n (nextWord s).2 := rfl

/-- The memory after a write-back: changed only where the target is a cell. -/
theorem mem_writeTarget (t : Target) (v : Word) (s : State) :
    (writeTarget t v s).mem = match t.addr with
      | some k => s.mem.write k.toNat v
      | none => s.mem := by
  cases t <;> rfl

/-- An instruction that stores completes, and memory is as before but for the word it writes, at the
address it stores to. -/
theorem exec_store (i : Instr) (s : State) (k : Word) (h : storeAddr i s = some k) :
    ∃ t v, exec i s = .next t ∧ writtenWord i s = some v ∧ t.mem = s.mem.write k.toNat v := by
  cases i <;> simp only [storeAddr, reduceCtorEq] at h
  case jsr a =>
    cases h
    exact ⟨_, _, rfl, rfl, congrArg (fun m => Memory.write m _ _) (resolve_mem a s)⟩
  all_goals
    refine ⟨_, _, rfl, rfl, (mem_writeTarget _ _ _).trans ?_⟩
    simp only [resolve2, h, resolve_mem]

end Sys2Proof.Machine
end

