-- ==== Sys2Proof/Laws/Run.lean ====
section
/-! SUPPORT. What loading an image leaves unchanged, and a run move by move. -/

namespace Sys2Proof.Machine

@[simp] theorem loadImage_regs (image : Config.Image) (s : State) :
    (loadImage image s).regs = s.regs := by
  induction image generalizing s with
  | nil => rfl
  | cons cell rest ih => exact ih _
@[simp] theorem loadImage_o (image : Config.Image) (s : State) : (loadImage image s).o = s.o := by
  induction image generalizing s with
  | nil => rfl
  | cons cell rest ih => exact ih _
@[simp] theorem loadImage_pc (image : Config.Image) (s : State) : (loadImage image s).pc = s.pc := by
  induction image generalizing s with
  | nil => rfl
  | cons cell rest ih => exact ih _
@[simp] theorem loadImage_sp (image : Config.Image) (s : State) : (loadImage image s).sp = s.sp := by
  induction image generalizing s with
  | nil => rfl
  | cons cell rest ih => exact ih _

/-- Loading keeps the canonical form of memory. -/
theorem loadImage_wf (image : Config.Image) (s : State) (h : s.wf) : (loadImage image s).wf := by
  induction image generalizing s with
  | nil => exact h
  | cons cell rest ih => exact ih _ (State.wf_writeMem s cell.1 cell.2 h)

@[simp] theorem runMoves_nil (p : Config.OnFault) (s : State) :
    runMoves p [] s = .stoppedByHost s := rfl
@[simp] theorem runMoves_write (p : Config.OnFault) (addr v : Word) (rest : List HostMove) (s : State) :
    runMoves p (.write addr v :: rest) s = runMoves p rest (hostWrite s addr v) := rfl

/-- A step that answers a next state hands it to the moves that follow. -/
theorem runMoves_next (p : Config.OnFault) (rest : List HostMove) (s t : State)
    (h : step s = .next t) : runMoves p (.step :: rest) s = runMoves p rest t := by
  simp [runMoves, h]

/-- A step that faults ends the run or goes on with the state it left, as the policy says. -/
theorem runMoves_fault (p : Config.OnFault) (rest : List HostMove) (s : State) (f : Fault)
    (h : step s = .fault f) :
    runMoves p (.step :: rest) s = .ofFault p (runMoves p rest) f := by
  simp [runMoves, h]

/-- The host's writes of an image's words, one after another, are the loading of that image. -/
theorem runMoves_image (p : Config.OnFault) (image : Config.Image) (rest : List HostMove) (s : State) :
    runMoves p (image.map (fun cell => .write cell.1 cell.2) ++ rest) s =
      runMoves p rest (loadImage image s) := by
  induction image generalizing s with
  | nil => rfl
  | cons cell more ih => exact ih _

end Sys2Proof.Machine
end

