-- ==== Sys2Proof/Tests/Slice0.lean ====
section
/-! SUPPORT. Tests. Expected values come from spec/95_test_vectors.md (V-ENC, V-OP, V-AR, V-SL, V-IF,
V-NB) and 30_encoding.md R65, named at each theorem; words in the decode tests are written out field by
field from R51. The witnesses show that each statement's hypotheses can be met. -/

namespace Sys2Proof.Tests

open Sys2Proof.Machine Sys2Proof.Safety

/-! ## Well-formedness -/

theorem test_wf_refuses_unrecognized_jsr : (Instr.unrecognized 0x01 (.reg .a)).wf = false := by decide
theorem test_wf_refuses_basic_zero : (Fields.basic 0x0 0x00 0x00).wf = false := by decide
theorem test_wf_takes_unrecognized_zero : (Instr.unrecognized 0x00 (.reg .a)).wf = true := by decide

/-! ## Decoding: words written out as b, a, o or a, n, 0000 (30_encoding.md R51) -/

theorem test_decode_set : decode 0b100101_000000_0001 = .set (.reg .a) (.lit 5) := by decide
theorem test_decode_add : decode 0b100001_000000_0010 = .add (.reg .a) (.lit 1) := by decide
theorem test_decode_sub : decode 0b100001_011100_0011 = .sub .pc (.lit 1) := by decide
theorem test_decode_mul : decode 0b000100_000000_0100 = .mul (.reg .a) (.reg .y) := by decide
theorem test_decode_div : decode 0b000001_000000_0101 = .div (.reg .a) (.reg .b) := by decide
theorem test_decode_mod : decode 0b100011_000000_0110 = .mod (.reg .a) (.lit 3) := by decide
theorem test_decode_shl : decode 0b100100_000000_0111 = .shl (.reg .a) (.lit 4) := by decide
theorem test_decode_shr : decode 0b111111_000000_1000 = .shr (.reg .a) (.lit 31) := by decide
theorem test_decode_and : decode 0b001010_000101_1001 = .and (.reg .z) (.regInd .c) := by decide
theorem test_decode_bor : decode 0b010011_001111_1010 = .bor (.regInd .j) (.regIdx .x) := by decide
theorem test_decode_xor : decode 0b011111_011101_1011 = .xor .o .nextLit := by decide
theorem test_decode_ife : decode 0b011000_011001_1100 = .ife .peek .pop := by decide
theorem test_decode_ifn : decode 0b110000_000000_1101 = .ifn (.reg .a) (.lit 0x10) := by decide
theorem test_decode_ifg : decode 0b000000_000001_1110 = .ifg (.reg .b) (.reg .a) := by decide
theorem test_decode_ifb : decode 0b111111_111111_1111 = .ifb (.lit 31) (.lit 31) := by decide
theorem test_decode_jsr : decode 0b011111_000001_0000 = .jsr .nextLit := by decide
theorem test_decode_unrecognized : decode 0b011010_000010_0000 = .unrecognized 2 .push := by decide
theorem test_decode_operands : decode 0b010110_011110_0001 = .set .nextInd (.regIdx .i) := by decide
theorem test_decode_sp : decode 0b011011_000000_0001 = .set (.reg .a) .sp := by decide
theorem test_encode_set : encode (.set .nextInd .nextLit) = 0x7de1 := by decide
theorem test_encode_jsr : encode (.jsr .nextLit) = 0x7c10 := by decide
theorem test_table_row : decodeTableWord 16 0x0010 = some (.jsr (.reg .a)) := by decide
theorem test_length : wordLength 0x7de1 = 3 ∧ wordLength 0x7c00 = 2 ∧ wordLength 0x0010 = 1 := by decide

/-! ## One step from the BASE state of 95_test_vectors.md -/

/-- The registers of BASE. -/
def baseRegs : RegFile :=
  { a := 0x0005, b := 0x0003, c := 0x2000, x := 0x1234, y := 0xFFFF, z := 0x0000, i := 0x0002,
    j := 0x8000 }

/-- BASE with A and B as given. -/
def base (a b : Word) : State :=
  { regs := { baseRegs with a := a, b := b }, o := 0x00AA, pc := 0x0100, sp := 0x9000, mem := [] }

/-- BASE as it stands. -/
def base0 : State :=
  base 0x0005 0x0003

/-- The state after a step that returns `ok`, from `s` with `cells` placed. -/
def okStep (s : State) (cells : Config.Image) : Option State :=
  match step (loadImage cells s) with
  | .next t => some t
  | _ => none

/-- The word and the state a faulting step leaves. -/
def faultStep (s : State) (cells : Config.Image) : Option (Word × State) :=
  match step (loadImage cells s) with
  | .fault (.decodeFault w t) => some (w, t)
  | _ => none

/-- A, O, PC and SP. -/
def view (t : State) : Word × Word × Word × Word :=
  (t.regs.a, t.o, t.pc, t.sp)

-- V-OP-5, V-OP-40
theorem test_index_wraps :
    (okStep base0 [(0x100, 0x5801), (0x101, 0xffff), (0x0001, 0x4242)]).map view =
      some (0x4242, 0xAA, 0x102, 0x9000) := by decide
theorem test_store_over_own_word :
    (okStep base0 [(0x100, 0x7de1), (0x101, 0x0101), (0x102, 0x7777)]).map
      (fun t => (t.readMem 0x101, t.pc)) = some (0x7777, 0x103) := by decide
-- V-OP-14, V-OP-33
theorem test_add_pop_pop :
    (okStep base0 [(0x100, 0x6182), (0x9000, 1), (0x9001, 2)]).map
      (fun t => (t.readMem 0x9000, view t)) = some (3, 5, 0, 0x101, 0x9002) := by decide
theorem test_add_to_o_keeps_carry :
    (okStep base0 [(0x100, 0x11d2)]).map view = some (5, 1, 0x101, 0x9000) := by decide
-- V-AR-6, V-AR-30
theorem test_sub_borrows :
    (okStep (base 0 3) [(0x100, 0x8403)]).map view = some (0xFFFF, 0xFFFF, 0x101, 0x9000) := by decide
theorem test_sub_self_jump :
    (okStep base0 [(0x100, 0x85c3)]).map view = some (5, 0, 0x100, 0x9000) := by decide
-- V-AR-12, V-AR-14
theorem test_mul_high_half :
    (okStep (base 0xFFFF 3) [(0x100, 0x1004)]).map view = some (1, 0xFFFE, 0x101, 0x9000) := by decide
theorem test_mul_carries_out :
    (okStep (base 0x100 0x100) [(0x100, 0x0404)]).map view = some (0, 1, 0x101, 0x9000) := by decide
-- V-AR-22, V-AR-15
theorem test_div_fraction :
    (okStep (base 0xFFFF 0xFFFE) [(0x100, 0x0405)]).map view = some (1, 1, 0x101, 0x9000) := by decide
theorem test_div_by_zero :
    (okStep (base 5 0) [(0x100, 0x0405)]).map view = some (0, 0, 0x101, 0x9000) := by decide
-- V-AR-27, V-AR-25
theorem test_mod :
    (okStep (base 0xFFFF 0x100) [(0x100, 0x0406)]).map view = some (0xFF, 0xAA, 0x101, 0x9000) := by
  decide
theorem test_mod_by_zero :
    (okStep (base 7 0) [(0x100, 0x0406)]).map view = some (0, 0xAA, 0x101, 0x9000) := by decide
-- V-SL-6, V-SL-9
theorem test_shl_17 :
    (okStep (base 0xFFFF 3) [(0x100, 0xc407)]).map view = some (0, 0xFFFE, 0x101, 0x9000) := by decide
theorem test_shl_whole_count :
    (okStep (base 0xFFFF 3) [(0x100, 0x1007)]).map view = some (0, 0, 0x101, 0x9000) := by decide
-- V-SL-12, V-SL-16
theorem test_shr_is_logical :
    (okStep (base 0x8001 3) [(0x100, 0x8408)]).map view = some (0x4000, 0x8000, 0x101, 0x9000) := by
  decide
theorem test_shr_31 :
    (okStep (base 0x8000 3) [(0x100, 0xfc08)]).map view = some (0, 1, 0x101, 0x9000) := by decide
-- V-SL-18, V-SL-19, V-SL-20, V-SL-22
theorem test_and :
    (okStep (base 0xF0F0 0x3C3C) [(0x100, 0x0409)]).map view = some (0x3030, 0xAA, 0x101, 0x9000) := by
  decide
theorem test_bor :
    (okStep (base 0xF0F0 0x3C3C) [(0x100, 0x040a)]).map view = some (0xFCFC, 0xAA, 0x101, 0x9000) := by
  decide
theorem test_xor :
    (okStep (base 0xF0F0 0x3C3C) [(0x100, 0x040b)]).map view = some (0xCCCC, 0xAA, 0x101, 0x9000) := by
  decide
theorem test_xor_next_word :
    (okStep (base 0x1234 3) [(0x100, 0x7c0b), (0x101, 0xffff)]).map view =
      some (0xEDCB, 0xAA, 0x102, 0x9000) := by decide
-- V-IF-13, V-IF-15
theorem test_ife_skips_three_words :
    (okStep base0 [(0x100, 0x040c), (0x101, 0x7de1), (0x102, 0x1000), (0x103, 0x20)]).map
      (fun t => (t.readMem 0x1000, view t)) = some (0, 5, 0xAA, 0x104, 0x9000) := by decide
theorem test_ife_skipped_pop_moves_sp :
    (okStep base0 [(0x100, 0x040c), (0x101, 0x6001), (0x9000, 0x1111)]).map view =
      some (5, 0xAA, 0x102, 0x9001) := by decide
-- V-IF-4, V-IF-5 (first step)
theorem test_ifn_skips :
    (okStep (base 0x10 3) [(0x100, 0xc00d), (0x101, 0x8411)]).map view =
      some (0x10, 0xAA, 0x102, 0x9000) := by decide
theorem test_ifn_passes :
    (okStep (base 0x11 3) [(0x100, 0xc00d), (0x101, 0x8411)]).map view =
      some (0x11, 0xAA, 0x101, 0x9000) := by decide
-- V-IF-9, V-IF-8
theorem test_ifg_is_unsigned :
    (okStep (base 0x8000 0x7FFF) [(0x100, 0x040e), (0x101, 0x8421)]).map view =
      some (0x8000, 0xAA, 0x101, 0x9000) := by decide
theorem test_ifg_equal_fails :
    (okStep (base 7 7) [(0x100, 0x040e), (0x101, 0x8421)]).map view =
      some (7, 0xAA, 0x102, 0x9000) := by decide
-- V-IF-10, V-IF-11
theorem test_ifb_passes :
    (okStep (base 0xF0 3) [(0x100, 0xc00f), (0x101, 0x8421)]).map view =
      some (0xF0, 0xAA, 0x101, 0x9000) := by decide
theorem test_ifb_skips :
    (okStep (base 0xE0 3) [(0x100, 0xc00f), (0x101, 0x8421)]).map view =
      some (0xE0, 0xAA, 0x102, 0x9000) := by decide
-- V-NB-4, V-NB-8
theorem test_jsr_pop_exchanges :
    (okStep base0 [(0x100, 0x6010), (0x9000, 0x500)]).map (fun t => (t.readMem 0x9000, view t)) =
      some (0x101, 5, 0xAA, 0x500, 0x9000) := by decide
theorem test_jsr_push_wraps :
    (okStep { base0 with sp := 0 } [(0x100, 0x7c10), (0x101, 0x40)]).map
      (fun t => (t.readMem 0xFFFF, view t)) = some (0x102, 5, 0xAA, 0x40, 0xFFFF) := by decide
-- V-NB-10, V-NB-11
theorem test_unrecognized_consumes_word :
    (faultStep base0 [(0x100, 0x7c00), (0x101, 0x1234)]).map (fun p => (p.1, view p.2)) =
      some (0x7c00, 5, 0xAA, 0x102, 0x9000) := by decide
theorem test_unrecognized_pop :
    (faultStep base0 [(0x100, 0x6020)]).map (fun p => (p.1, view p.2)) =
      some (0x6020, 5, 0xAA, 0x101, 0x9001) := by decide

/-! ## Memory, the placed word, runs and the port -/

theorem test_write_keeps_order :
    (loadImage [(5, 1), (3, 2), (4, 7), (3, 0)] State.reset).mem = [(4, 7), (5, 1)] := by decide
theorem test_with_fetch_word :
    (match step (State.reset.withFetchWord 16 0x7c10) with
      | .next t => some (view t, t.readMem 0xFFFE)
      | _ => none) = some ((0, 0, 0, 0xFFFE), 2) := by decide
-- V-NB-14 under both policies (92_eei_decisions.md D18)
theorem test_run_resumes :
    (match runUnder .resume 2 (loadImage [(0x101, 0x9401)] (base 0 3)) with
      | .stoppedByHost t => some (view t)
      | _ => none) = some (5, 0xAA, 0x102, 0x9000) := by decide
theorem test_run_halts :
    (match runUnder .halt 2 (loadImage [(0x101, 0x9401)] (base 0 3)) with
      | .finishedWithFault w t => some (w, view t)
      | _ => none) = some (0, 0, 0xAA, 0x101, 0x9000) := by decide
-- 70_reset_and_hazards.md R165: the image's SET A, 5, then 0x9801 (SET A, 6 by R53) written by the host at PC
theorem test_run_host_writes :
    (match runFrom .halt [(0, 0x9401)] [.step, .write 1 0x9801, .step] with
      | .stoppedByHost t => some (view t)
      | _ => none) = some (6, 0, 2, 0xFFFF) := by decide
-- 60_exceptions.md R147: after a reported fault the next call of step goes on
theorem test_results_read :
    resultsRead .resume [.step, .write 1 0x9801, .step] State.reset = [.fault 0, .ok] := by decide
-- 10_state.md R26: the longest sequence, reads (1) to (10)
theorem test_port_longest :
    portTrace (loadImage [(0, 0x79ec), (1, 0x50), (2, 0x60), (3, 0x79e1), (4, 0x70), (5, 0x80), (0x50, 9)]
      State.reset) =
    [.read 0 0x79ec, .read 1 0x50, .read 0x50 9, .read 2 0x60, .read 0x60 0, .read 3 0x79e1,
      .read 4 0x70, .read 0x70 0, .read 5 0x80, .read 0x80 0] := by decide

/-! ## Witnesses for the statements that have hypotheses -/

theorem witness_WordFieldsFollowLayout :
    (0x0001 : Word).toNat % 16 ≠ 0 ∧ (0xFFFF : Word).toNat % 16 ≠ 0 ∧
    (0x0000 : Word).toNat % 16 = 0 ∧ (0xFFF0 : Word).toNat % 16 = 0 := by decide
theorem witness_FieldsEncodeDecodeInverse :
    (Fields.basic 0x1 0x00 0x3f).wf = true ∧ (Fields.basic 0xf 0x3f 0x00).wf = true ∧
    (Fields.nonBasic 0x00 0x3f).wf = true := by decide
theorem witness_InstrEncodeDecodeInverse :
    (Instr.unrecognized 0x00 .push).wf = true ∧ (Instr.unrecognized 0x02 .pop).wf = true ∧
    (Instr.ifb (.lit 31) .nextLit).wf = true := by decide
theorem witness_DecodeFollowsOpcodeTable :
    (0xFFF1 : Word) &&& 0x000F = 0x0001 ∧ (0xFFF2 : Word) &&& 0x000F = 0x0002 ∧
    (0xFFF3 : Word) &&& 0x000F = 0x0003 ∧ (0xFFF4 : Word) &&& 0x000F = 0x0004 ∧
    (0xFFF5 : Word) &&& 0x000F = 0x0005 ∧ (0xFFF6 : Word) &&& 0x000F = 0x0006 ∧
    (0xFFF7 : Word) &&& 0x000F = 0x0007 ∧ (0xFFF8 : Word) &&& 0x000F = 0x0008 ∧
    (0xFFF9 : Word) &&& 0x000F = 0x0009 ∧ (0xFFFA : Word) &&& 0x000F = 0x000A ∧
    (0xFFFB : Word) &&& 0x000F = 0x000B ∧ (0xFFFC : Word) &&& 0x000F = 0x000C ∧
    (0xFFFD : Word) &&& 0x000F = 0x000D ∧ (0xFFFE : Word) &&& 0x000F = 0x000E ∧
    (0xFFFF : Word) &&& 0x000F = 0x000F ∧ (0xFC10 : Word) &&& 0x03FF = 0x0010 ∧
    ((0x0000 : Word) &&& 0x000F = 0x0000 ∧ (0x0000 : Word) &&& 0x03FF ≠ 0x0010) ∧
    ((0x0020 : Word) &&& 0x000F = 0x0000 ∧ (0x0020 : Word) &&& 0x03FF ≠ 0x0010) ∧
    ((0xFFF0 : Word) &&& 0x000F = 0x0000 ∧ (0xFFF0 : Word) &&& 0x03FF ≠ 0x0010) := by decide
theorem witness_StepKeepsMemoryCanonical :
    State.reset.wf ∧ (∃ f, step State.reset = .fault f) ∧
    (loadImage [(0x100, 0x01a1)] base0).wf ∧ ∃ t, step (loadImage [(0x100, 0x01a1)] base0) = .next t :=
  ⟨by decide, ⟨_, rfl⟩, by decide, ⟨_, rfl⟩⟩
theorem witness_NextWordReadsThenAdvances :
    (Operand.regIdx .j).extraWords = 1 ∧ Operand.nextInd.extraWords = 1 ∧
    Operand.nextLit.extraWords = 1 := by decide
theorem witness_PopResolves :
    fieldsOf ((loadImage [(0x100, 0x6020)] base0).readMem 0x100) = .nonBasic 0x02 0x18 ∧
    fieldsOf ((loadImage [(0x100, 0x9581)] base0).readMem 0x100) = .basic 0x1 0x18 0x25 ∧
    fieldsOf ((loadImage [(0x100, 0x6001)] base0).readMem 0x100) = .basic 0x1 0x00 0x18 ∧
    fieldsOf ((loadImage [(0x100, 0x6181)] base0).readMem 0x100) = .basic 0x1 0x18 0x18 := by decide
theorem witness_ShortLiteralResolves :
    0x20 ≤ (0x20 : BitVec 6).toNat ∧ 0x20 ≤ (0x3f : BitVec 6).toNat := by decide
theorem witness_ResolverSideEffects :
    readTarget (resolve (.ofCode 0x18) base0).target base0 = some 0 ∧
    readTarget (resolve (.ofCode 0x1c) base0).target base0 = some 0x100 := by decide
theorem witness_WriteBackChangesOnlyItsTarget :
    Target.mem 0xFFFF ≠ .none ∧ Target.mem 0x0000 ≠ .mem 0xFFFF ∧ Target.none ≠ Target.sp := by decide
theorem witness_LiteralDestinationDropsTheResult :
    writingOperands (.add (.lit 31) (.reg .y)) = some (.lit 31, .reg .y) ∧
    writingOperands (.set .nextLit .pop) = some (.nextLit, .pop) ∧
    (∃ v, Operand.lit 31 = .lit v) ∧ writesO (.set .nextLit .pop) = false :=
  ⟨rfl, rfl, ⟨31, rfl⟩, rfl⟩
theorem witness_DivCompletes_ModCompletes :
    (resolve2 (.reg .a) (.lit 0) base0).bv = 0 ∧ ¬ (resolve2 (.reg .a) (.lit 1) base0).bv = 0 := by
  decide
theorem witness_ShlCompletes_ShrCompletes :
    (resolve2 (.reg .a) (.lit 15) base0).bv.toNat = 15 ∧
    (resolve2 (.reg .a) (.lit 16) base0).bv.toNat = 16 ∧
    (resolve2 (.reg .a) (.lit 31) base0).bv.toNat = 31 ∧
    (resolve2 (.reg .a) (.reg .b) (base 1 32)).bv.toNat = 32 := by decide
theorem witness_IfbCompletes :
    (∃ k < 16, (resolve2 (.reg .a) (.lit 16) (base 0xF0 3)).av.getLsbD k = true ∧
      (resolve2 (.reg .a) (.lit 16) (base 0xF0 3)).bv.getLsbD k = true) ∧
    (∀ k < 16, (resolve2 (.reg .a) (.lit 16) (base 0xE0 3)).av.getLsbD k = false ∨
      (resolve2 (.reg .a) (.lit 16) (base 0xE0 3)).bv.getLsbD k = false) :=
  ⟨⟨4, by decide⟩, by decide⟩
theorem witness_WritingInstructionsFrame :
    writingOperands (.and .push (.reg .b)) = some (.push, .reg .b) ∧
    (∃ t, exec (.and .push (.reg .b)) base0 = .next t) ∧
    (resolve .push base0).target ≠ .reg .a ∧ (resolve .push base0).target ≠ .sp ∧
    (resolve .push base0).target ≠ .o ∧ writesO (.and .push (.reg .b)) = false ∧
    storeAddr (.and .push (.reg .b)) base0 ≠ some 0x9000 ∧
    (resolve .peek base0).target ≠ .sp ∧ movesSp .peek = false ∧ movesSp (.reg .b) = false :=
  ⟨rfl, ⟨_, rfl⟩, by decide, by decide, by decide, rfl, by decide, by decide, rfl, rfl⟩
theorem witness_ConditionalsFrame :
    testingOperands (.ife (.reg .a) (.reg .b)) = some (.reg .a, .reg .b) ∧
    (∃ t, exec (.ife (.reg .a) (.reg .b)) base0 = .next t) ∧
    movesSp (.reg .a) = false ∧ movesSp (.reg .b) = false ∧
    ∀ x ∈ (decode (base0.readMem (resolve2 (.reg .a) (.reg .b) base0).state.pc)).operands,
      movesSp x = false :=
  ⟨rfl, ⟨_, rfl⟩, rfl, rfl, by decide⟩
theorem witness_SkipResolvesAndDispatchesNothing :
    fieldsOf ((loadImage [(0x100, 0x01a1)] base0).readMem 0x100) = .basic 0x1 0x1a 0x00 ∧
    fieldsOf (base0.readMem 0x100) = .nonBasic 0x00 0x00 := by decide
theorem witness_FaultingStepIsPrecise :
    unrecognizedWord (State.reset.readMem State.reset.pc) = true := by decide
theorem witness_CallerHaltsOrGoesOnAfterFault :
    step State.reset = .fault (.decodeFault 0 (State.reset.setPc 1)) ∧
    noFaultReported 1 (loadImage [(0x100, 0x85c3)] base0) = true :=
  ⟨rfl, rfl⟩
theorem witness_HostActsBetweenSteps :
    (∃ t, runMoves .halt [.write 0 0x9401, .step] State.reset = .stoppedByHost t) ∧
    (∃ t, runMoves .halt [.write 1 0x9401, .step] State.reset = .finishedWithFault 0 t) ∧
    (∃ t, exec (decode 0x9401) ((hostWrite State.reset State.reset.pc 0x9401).setPc 1) = .next t) :=
  ⟨⟨_, rfl⟩, ⟨_, rfl⟩, ⟨_, rfl⟩⟩
theorem witness_StepRunsTheDecodedInstruction :
    decode ((loadImage [(0x100, 0x6010)] base0).readMem 0x100) = .jsr .pop := by decide
theorem witness_StepChangesAtMost :
    (∃ t, step (loadImage [(0x100, 0x85d2)] base0) = .next t ∧ t.o ≠ base0.o) ∧
    (∃ t, step (loadImage [(0x100, 0x6001), (0x9000, 7)] base0) = .next t ∧ t.sp ≠ base0.sp ∧
      t.readReg .a ≠ base0.readReg .a) :=
  ⟨⟨_, rfl, by decide⟩, ⟨_, rfl, by decide, by decide⟩⟩
theorem witness_AddressesWrapAndNeverFault : ∃ f, step State.reset = .fault f :=
  ⟨_, rfl⟩
theorem witness_StoreIsSeenByTheNextFetch :
    (∃ t u : State, exec (.jsr (.lit 3)) base0 = .next t ∧
      storeAddr (.jsr (.lit 3)) base0 = some 0x8FFF ∧ u.mem = t.mem ∧ u.pc = 0x8FFF) ∧
    (∃ t u : State, exec (.add .peek (.lit 3)) base0 = .next t ∧
      storeAddr (.add .peek (.lit 3)) base0 = some 0x9000 ∧ u.mem = t.mem ∧ u.pc = 0x9000) ∧
    (∃ u : State, u.mem = (hostWrite base0 0x100 0x85c3).mem ∧ u.pc = 0x100) :=
  ⟨⟨_, State.setPc _ 0x8FFF, rfl, by decide, rfl, rfl⟩, ⟨_, State.setPc _ 0x9000, rfl, by decide, rfl, rfl⟩,
    ⟨hostWrite base0 0x100 0x85c3, rfl, rfl⟩⟩
theorem witness_PushThenPopRestores : movesSp (.lit 7) = false ∧ movesSp .sp = false := by decide
theorem witness_ReturnGoesBackPastTheCall :
    ∃ t u : State, exec (.jsr .nextLit) base0 = .next t ∧ u.sp = t.sp ∧ u.mem = t.mem :=
  ⟨_, _, rfl, rfl, rfl⟩
theorem witness_AddToPcCountsFromTheNextWord :
    decode ((loadImage [(0x100, 0x7dc2)] base0).readMem 0x100) = .add .pc .nextLit := by decide
theorem witness_PortMakesAtMostTenReadsAndOneWrite :
    skips (decode ((loadImage [(0x100, 0x040c)] base0).readMem 0x100))
      (nextWord (loadImage [(0x100, 0x040c)] base0)).2 = true := by decide
theorem witness_PortAccessesAccountForMemory :
    (∃ t, step (loadImage [(0x100, 0x01a1)] base0) = .next t) ∧
    Access.read 0x100 0x01a1 ∈ portTrace (loadImage [(0x100, 0x01a1)] base0) ∧
    Access.write 0x8FFF 0x0005 ∈ portTrace (loadImage [(0x100, 0x01a1)] base0) :=
  ⟨⟨_, rfl⟩, by decide, by decide⟩

end Sys2Proof.Tests
end

section
/-! SUPPORT. Operand codes and lengths: the operand code table (30_encoding.md R54) and what the decoder
gives, said in terms of operands and of extra words. -/

namespace Sys2Proof

/-! ## Registers and operand codes -/

@[simp] theorem Reg.ofNum_num (r : Reg) : Reg.ofNum r.num = r := by
  cases r <;> rfl

theorem Operand.toNat_code_reg (r : Reg) : (Operand.reg r).code.toNat = r.num.toNat := by
  cases r <;> rfl

theorem Operand.toNat_code_regInd (r : Reg) :
    (Operand.regInd r).code.toNat = 0x08 + r.num.toNat := by
  cases r <;> rfl

theorem Operand.toNat_code_regIdx (r : Reg) :
    (Operand.regIdx r).code.toNat = 0x10 + r.num.toNat := by
  cases r <;> rfl

theorem Operand.toNat_code_lit (v : BitVec 5) : (Operand.lit v).code.toNat = 0x20 + v.toNat := by
  have hv := v.isLt
  simp only [Operand.code, BitVec.toNat_ofNat]
  omega

/-- Every code from 0x20 on is a short literal's. -/
theorem Operand.ofCode_of_le (c : BitVec 6) (h : 0x20 ≤ c.toNat) :
    Operand.ofCode c = .lit (c.extractLsb' 0 5) := by
  unfold Operand.ofCode
  repeat rw [if_neg (by omega)]

/-- The code table loses no operand: reading back an operand's code gives the operand. -/
@[simp] theorem Operand.ofCode_code (x : Operand) : Operand.ofCode x.code = x := by
  cases x with
  | reg r => cases r <;> rfl
  | regInd r => cases r <;> rfl
  | regIdx r => cases r <;> rfl
  | lit v =>
    have hc := Operand.toNat_code_lit v
    rw [Operand.ofCode_of_le _ (by omega)]
    congr 1
    apply BitVec.eq_of_toNat_eq
    have hv := v.isLt
    simp only [BitVec.extractLsb'_toNat, hc, Nat.shiftRight_zero]
    omega
  | _ => rfl

/-- The code table loses no code: a finite fact about the 64 codes. -/
@[simp] theorem Operand.code_ofCode (c : BitVec 6) : (Operand.ofCode c).code = c := by
  revert c
  decide

/-! ## Lengths -/

/-- `x(c)` of 30_encoding.md R60 is the table's column "extra word consumed": a finite fact about the 64
codes. -/
theorem Operand.extraWords_ofCode (c : BitVec 6) : (Operand.ofCode c).extraWords = codeExtra c := by
  revert c
  decide

theorem operands_instrOf_nonBasic (n a : BitVec 6) :
    (instrOf (.nonBasic n a)).operands = [.ofCode a] := by
  show (nonBasicInstr n (.ofCode a)).operands = _
  unfold nonBasicInstr
  split <;> rfl

theorem operands_instrOf_basic {o : BitVec 4} (a b : BitVec 6) (h : o ≠ 0) :
    (instrOf (.basic o a b)).operands = [.ofCode a, .ofCode b] := by
  have hlt := o.isLt
  have hne : o.toNat ≠ 0 := fun h0 => h (BitVec.eq_of_toNat_eq h0)
  simp only [instrOf]
  split
  case h_16 =>
    exfalso
    simp only [imp_false] at *
    omega
  all_goals rfl

/-- The decoded instruction occupies the words that R60's formula reads off the word. -/
theorem length_decode (w : Word) : (decode w).length = wordLength w := by
  unfold decode fieldsOf wordLength
  split
  · simp [Instr.length, operands_instrOf_nonBasic, Operand.extraWords_ofCode]
  · next h =>
    simp [Instr.length, operands_instrOf_basic _ _ h, Operand.extraWords_ofCode, Nat.add_assoc]

theorem Instr.length_operands_le (i : Instr) : i.operands.length ≤ 2 := by
  cases i <;> simp [Instr.operands]

end Sys2Proof
end

section
/-! SUPPORT. What a resolution does to SP, what resolving all operands in order does, and what a writing
instruction answers. -/

namespace Sys2Proof.Machine

open Sys2Proof.Safety

theorem resolve_sp_of_movesSp_eq_false {x : Operand} (h : movesSp x = false) (s : State) :
    (resolve x s).state.sp = s.sp := by
  cases x with
  | pop => cases h
  | push => cases h
  | _ => rfl

@[simp] theorem resolveAll_mem (xs : List Operand) (s : State) : (resolveAll xs s).mem = s.mem := by
  induction xs generalizing s with
  | nil => rfl
  | cons x xs ih => simp [resolveAll, ih]

/-- PC moves on by the extra words of all the operands. -/
theorem resolveAll_pc (xs : List Operand) (s : State) :
    (resolveAll xs s).pc = s.pc + BitVec.ofNat 16 (xs.map Operand.extraWords).sum := by
  induction xs generalizing s with
  | nil => simp [resolveAll]
  | cons x xs ih => simp [resolveAll, ih, resolve_pc, BitVec.ofNat_add, BitVec.add_assoc]

theorem Target.addr_eq_some_iff (t : Target) (k : Word) : t.addr = some k ↔ t = .mem k := by
  cases t <;> simp [Target.addr]

/-- A writing instruction stores where its operand a names a cell. -/
theorem storeAddr_of_writingOperands {i : Instr} {a b : Operand}
    (h : writingOperands i = some (a, b)) (s : State) :
    storeAddr i s = (resolve a s).target.addr := by
  cases i <;> cases h <;> rfl

/-- All that a writing instruction does: the resolutions, the write-back of its result, then O, which is
left as it stands by an instruction that is no O-writer (10_state.md R12, R14; D4, D5). -/
theorem exec_of_writingOperands {i : Instr} {a b : Operand}
    (h : writingOperands i = some (a, b)) (s : State) :
    ∃ v o, writtenWord i s = some v ∧
      exec i s = .next ((writeTarget (resolve a s).target v (resolve2 a b s).state).setO o) ∧
      (writesO i = false → o = (writeTarget (resolve a s).target v (resolve2 a b s).state).o) := by
  cases i
  case set | mod | and | bor | xor =>
    cases h
    exact ⟨_, State.o _, rfl, rfl, fun _ => rfl⟩
  case add | sub | mul | div | shl | shr =>
    cases h
    exact ⟨_, _, rfl, rfl, nofun⟩
  all_goals cases h

end Sys2Proof.Machine
end

section
/-! SUPPORT. The reads and the write of a step at the memory port (10_state.md R26, 20_memory.md R45). -/

namespace Sys2Proof.Machine

/-! ## The words of one instruction -/

/-- The reads of a run of words depend on PC and memory only. -/
theorem wordReads_congr (n : Nat) {s t : State} (hpc : s.pc = t.pc) (hmem : s.mem = t.mem) :
    wordReads n s = wordReads n t := by
  induction n generalizing s t with
  | zero => rfl
  | succ n ih =>
    have hfetch : fetchPort s = fetchPort t := by simp [fetchPort, State.readMem, hpc, hmem]
    rw [wordReads_succ, wordReads_succ, hfetch,
      ih (s := (nextWord s).2) (t := (nextWord t).2) (by simp [hpc]) hmem]

/-- A run of `m + n` words is one of `m` words and one of `n` words from any state that has the same
memory and its PC `m` words on. -/
theorem wordReads_add (m n : Nat) {s t : State} (hpc : t.pc = s.pc + BitVec.ofNat 16 m)
    (hmem : t.mem = s.mem) : wordReads (m + n) s = wordReads m s ++ wordReads n t := by
  induction m generalizing s with
  | zero => simpa using wordReads_congr n (by simp [hpc]) hmem.symm
  | succ m ih =>
    have hpc' : t.pc = (nextWord s).2.pc + BitVec.ofNat 16 m := by
      rw [hpc, nextWord_state, State.setPc_pc, Nat.add_comm, BitVec.ofNat_add, BitVec.add_assoc]
      rfl
    simp only [Nat.succ_add, wordReads_succ, List.append_assoc]
    rw [ih hpc' hmem]

theorem wordReads_sublist_resolvePort (x : Operand) (s : State) :
    (wordReads x.extraWords s).Sublist (resolvePort x s) := by
  refine List.Sublist.trans ?_ (List.sublist_append_left _ _)
  have hx := Laws.SizeBounds.extraWords_le x
  split
  · next h => simp [h]
  · next h =>
    have h0 : x.extraWords = 0 := by omega
    simp [h0]

theorem wordReads_sublist_resolvePorts (xs : List Operand) (s : State) :
    (wordReads (xs.map Operand.extraWords).sum s).Sublist (resolvePorts xs s) := by
  induction xs generalizing s with
  | nil => exact List.Sublist.refl _
  | cons x xs ih =>
    rw [List.map_cons, List.sum_cons, wordReads_add _ _ (resolve_pc x s) (resolve_mem x s)]
    exact (wordReads_sublist_resolvePort x s).append (ih _)

/-- Consuming an instruction reads all its words, in order (R26; D14). -/
theorem wordReads_sublist_skipPort (s : State) :
    (wordReads (wordLength (s.readMem s.pc)) s).Sublist (skipPort s) := by
  rw [← length_decode, Instr.length, Nat.add_comm]
  exact (List.Sublist.refl _).append (wordReads_sublist_resolvePorts _ _)

/-! ## The number of reads -/

theorem length_resolvePort_le (x : Operand) (s : State) : (resolvePort x s).length ≤ 2 := by
  unfold resolvePort
  rw [List.length_append]
  refine Nat.add_le_add (b := 1) (d := 1) ?_ ?_
  · split <;> simp [fetchPort]
  · split <;> simp

theorem length_resolvePorts_le (xs : List Operand) (s : State) :
    (resolvePorts xs s).length ≤ 2 * xs.length := by
  induction xs generalizing s with
  | nil => simp [resolvePorts]
  | cons x xs ih =>
    have hx := length_resolvePort_le x s
    have hxs := ih (resolve x s).state
    simp only [resolvePorts, List.length_append, List.length_cons]
    omega

/-- Consuming an instruction makes at most five reads: its word, and at most two for each operand. -/
theorem length_skipPort_le (s : State) : (skipPort s).length ≤ 5 := by
  have hports := length_resolvePorts_le (decode (nextWord s).1).operands (nextWord s).2
  have hops := (decode (nextWord s).1).length_operands_le
  simp only [skipPort, fetchPort, List.length_append, List.length_singleton]
  omega

/-! ## The reads of a step -/

/-- A step reads what consuming its instruction reads, and then the same for the one it skips. -/
theorem stepReads_eq (s : State) :
    stepReads s = skipPort s ++
      if skips (decode (s.readMem s.pc)) (nextWord s).2 then
        skipPort (resolveAll (decode (s.readMem s.pc)).operands (nextWord s).2)
      else [] :=
  rfl

/-- After an instruction's operands are resolved, PC is past all of its words. -/
theorem pc_after_operands (s : State) :
    (resolveAll (decode (s.readMem s.pc)).operands (nextWord s).2).pc =
      s.pc + BitVec.ofNat 16 (wordLength (s.readMem s.pc)) := by
  rw [resolveAll_pc, ← length_decode, Instr.length, BitVec.ofNat_add, ← BitVec.add_assoc]
  rfl

theorem length_stepReads_le (s : State) : (stepReads s).length ≤ 10 := by
  have hown := length_skipPort_le s
  rw [stepReads_eq, List.length_append]
  split
  · have hskipped :=
      length_skipPort_le (resolveAll (decode (s.readMem s.pc)).operands (nextWord s).2)
    omega
  · simp only [List.length_nil]
    omega

theorem head?_stepReads (s : State) : (stepReads s).head? = some (.read s.pc (s.readMem s.pc)) :=
  rfl

/-- A step reads every word of its instruction, and of the one it skips, in order from PC on. -/
theorem wordReads_sublist_stepReads (s : State) :
    (wordReads (wordLength (s.readMem s.pc) +
      if skips (decode (s.readMem s.pc)) (nextWord s).2 then
        wordLength (s.readMem (s.pc + BitVec.ofNat 16 (wordLength (s.readMem s.pc)))) else 0)
      s).Sublist (stepReads s) := by
  have hpc := pc_after_operands s
  have hmem : (resolveAll (decode (s.readMem s.pc)).operands (nextWord s).2).mem = s.mem := by simp
  rw [stepReads_eq, wordReads_add _ _ hpc hmem]
  refine (wordReads_sublist_skipPort s).append ?_
  split
  · have hword := wordReads_sublist_skipPort
      (resolveAll (decode (s.readMem s.pc)).operands (nextWord s).2)
    rwa [hpc, State.readMem, hmem] at hword
  · exact List.Sublist.refl _

/-! ## The write of a step -/

/-- An instruction makes one write for each address it stores to, and there is at most one. -/
theorem writePort_eq_map (i : Instr) (s : State) :
    writePort i s = (storeAddr i s).toList.map fun k => .write k ((writtenWord i s).getD 0) := by
  cases h : storeAddr i s with
  | none => simp [writePort, h]
  | some k =>
    obtain ⟨-, v, -, hv, -⟩ := exec_store i s k h
    simp [writePort, h, hv]

theorem stepWrites_eq_map (s : State) :
    stepWrites s = (storeAddr (decode (s.readMem s.pc)) (nextWord s).2).toList.map fun k =>
      .write k ((writtenWord (decode (s.readMem s.pc)) (nextWord s).2).getD 0) :=
  writePort_eq_map _ _

/-- An instruction that skips is a conditional, and stores nothing. -/
theorem storeAddr_of_skips {i : Instr} {s : State} (h : skips i s = true) :
    storeAddr i s = none := by
  cases i
  case ife | ifn | ifg | ifb => rfl
  case unrecognized => rfl
  all_goals cases h

end Sys2Proof.Machine
end

section
/-! PROOFS. The statements about the state (10_state.md) and what rests on it. -/

namespace Sys2Proof.Proofs

open Sys2Proof.Machine Sys2Proof.Safety

/-- Settles O38, from what a writing instruction answers and what a write-back does to each part of the
state. -/
theorem writingInstructionsFrame : Obligations.WritingInstructionsFrame := by
  intro i a b s t hi ht
  obtain ⟨v, o, -, hexec, ho⟩ := exec_of_writingOperands hi s
  rw [hexec, Host.Outcome.next.injEq] at ht
  subst ht
  have hsp : (resolve a s).target ≠ .sp →
      (writeTarget (resolve a s).target v (resolve2 a b s).state).sp = (resolve2 a b s).state.sp :=
    fun h => by rw [sp_writeTarget, if_neg h]
  refine ⟨fun q hq => ?_, hsp, fun h ha hb => ?_, fun h hw => ?_, fun k hk => ?_⟩
  · simp [readReg_writeTarget, hq, resolve2]
  · rw [State.setO_sp, hsp h]
    exact (resolve_sp_of_movesSp_eq_false hb _).trans (resolve_sp_of_movesSp_eq_false ha s)
  · rw [State.setO_o, ho hw, o_writeTarget, if_neg h, resolve2_o]
  · rw [storeAddr_of_writingOperands hi, ne_eq, Target.addr_eq_some_iff] at hk
    simp [readMem_writeTarget, hk, resolve2]

/-- Settles O58: a step's reads are those of consuming one instruction, or two where it skips, and its
write is the one at `storeAddr`. -/
theorem portMakesAtMostTenReadsAndOneWrite : Obligations.PortMakesAtMostTenReadsAndOneWrite := by
  intro s
  refine ⟨length_stepReads_le s, ?_, fun h => ?_, head?_stepReads s, wordReads_sublist_stepReads s, ?_⟩
  · rw [stepWrites_eq_map, List.length_map]
    exact Option.length_toList_le
  · rw [stepWrites_eq_map, storeAddr_of_skips h]
    rfl
  · rw [stepWrites_eq_map, List.map_map]
    exact List.map_id _

/-- Settles O5, from the rows of the code table; each direction of the bijection is a lemma. -/
theorem operandCodesBijective : Obligations.OperandCodesBijective :=
  ⟨by decide,
    fun r => ⟨Reg.ofNum_num r, Operand.toNat_code_reg r, Operand.toNat_code_regInd r,
      Operand.toNat_code_regIdx r⟩,
    by decide, Operand.toNat_code_lit, Operand.code_ofCode, Operand.ofCode_code⟩

/-- Settles O8, with the rule for a read after a store for what a loader overwrites. -/
theorem resetLeavesStatedValues : Obligations.ResetLeavesStatedValues := by
  refine ⟨fun r => ?_, rfl, rfl, rfl, fun _ => rfl, rfl, State.readMem_writeMem_same _⟩
  cases r <;> rfl

end Sys2Proof.Proofs
end

section
/-! SUPPORT. The word at PC after a store (20_memory.md R42), the memory a completed instruction leaves,
and the reads of a step as reads of the memory it starts from (R39). -/

namespace Sys2Proof.Machine

open Sys2Proof.Safety

/-! ## The word at PC -/

/-- Everything that reads the word at PC gets what that cell holds. -/
theorem fetchesWord_readMem_pc (s : State) : fetchesWord s (s.readMem s.pc) :=
  ⟨rfl, rfl, rfl, fun _ => rfl⟩

/-- A word written to memory is what is fetched with PC at its address. -/
theorem fetchesWord_of_mem_eq_write {u : State} {m : Memory} {k v : Word}
    (hmem : u.mem = m.write k.toNat v) (hpc : u.pc = k) : fetchesWord u v := by
  have hread : u.readMem u.pc = v := by simp [State.readMem, hmem, hpc, Memory.read_write]
  exact hread ▸ fetchesWord_readMem_pc u

/-! ## Faults -/

/-- Only an unrecognized word's instruction faults (60_exceptions.md R140, R143). -/
theorem eq_unrecognized_of_exec_eq_fault {i : Instr} {s : State} {f : Fault}
    (h : exec i s = .fault f) : ∃ n a, i = .unrecognized n a := by
  cases i
  case unrecognized n a => exact ⟨n, a, rfl⟩
  all_goals cases h

/-! ## The memory a completed instruction leaves -/

/-- A conditional leaves memory as it is, whether it passes or skips. -/
theorem execTest_mem {test : Word → Word → Bool} {a b : Operand} {s t : State}
    (h : execTest test a b s = .next t) : t.mem = s.mem := by
  cases h
  split <;> simp

/-- An instruction that completes without storing leaves memory as it is. -/
theorem exec_mem_of_storeAddr_eq_none {i : Instr} {s t : State} (h : storeAddr i s = none)
    (ht : exec i s = .next t) : t.mem = s.mem := by
  cases i
  case ife | ifn | ifg | ifb => exact execTest_mem ht
  case jsr => cases h
  case unrecognized => cases ht
  all_goals
    simp only [storeAddr] at h
    cases ht
    refine (mem_writeTarget _ _ _).trans ?_
    simp only [resolve2, h, resolve_mem]

/-! ## The write of an instruction -/

/-- The writes of an instruction are the store of its word at its store's address. -/
theorem mem_writePort_iff {i : Instr} {s : State} {e : Access} :
    e ∈ writePort i s ↔
      ∃ k v, storeAddr i s = some k ∧ writtenWord i s = some v ∧ e = .write k v := by
  unfold writePort
  split
  · next hk hv => simp [hk, hv]
  · next hne =>
    exact ⟨nofun, fun ⟨k, v, hk, hv, _⟩ => (hne k v hk hv).elim⟩

/-- A word written to the port is what its cell holds after the instruction. -/
theorem readMem_of_write_mem_writePort {i : Instr} {s t : State} {k v : Word}
    (ht : exec i s = .next t) (h : .write k v ∈ writePort i s) : t.readMem k = v := by
  obtain ⟨_, _, hk, hv, ⟨⟩⟩ := mem_writePort_iff.1 h
  obtain ⟨t', v', ht', hv', hmem⟩ := exec_store i s k hk
  cases ht.symm.trans ht'
  cases hv.symm.trans hv'
  simp [State.readMem, hmem, Memory.read_write]

/-- The port's write is all that a completed instruction does to memory. -/
theorem replay_writePort {i : Instr} {s t : State} (ht : exec i s = .next t) :
    replay (writePort i s) s.mem = t.mem := by
  cases hk : storeAddr i s with
  | none => simp [writePort, hk, replay, exec_mem_of_storeAddr_eq_none hk ht]
  | some k =>
    obtain ⟨t', v, ht', hv, hmem⟩ := exec_store i s k hk
    cases ht.symm.trans ht'
    simp [writePort, hk, hv, replay, hmem]

/-! ## The reads of a step -/

/-- Every access is a read, and gives what the memory holds. -/
def ReadsOf (m : Memory) (l : List Access) : Prop :=
  ∀ e ∈ l, ∃ k : Word, e = .read k (m.read k.toNat)

theorem ReadsOf.nil (m : Memory) : ReadsOf m [] := nofun

theorem ReadsOf.singleton (m : Memory) (k : Word) : ReadsOf m [.read k (m.read k.toNat)] :=
  fun _ he => ⟨k, List.mem_singleton.1 he⟩

theorem ReadsOf.append {m : Memory} {l l' : List Access} (h : ReadsOf m l) (h' : ReadsOf m l') :
    ReadsOf m (l ++ l') :=
  List.forall_mem_append.2 ⟨h, h'⟩

/-- Reads change nothing (20_memory.md R35). -/
theorem ReadsOf.replay_append {m : Memory} {l : List Access} (h : ReadsOf m l)
    (l' : List Access) (m' : Memory) : replay (l ++ l') m' = replay l' m' := by
  induction l with
  | nil => rfl
  | cons e l ih =>
    obtain ⟨⟨k, rfl⟩, hl⟩ := List.forall_mem_cons.1 h
    exact ih hl

/-- A resolution that names a cell gives what the cell held before it. -/
theorem resolve_value_of_target_eq_mem {x : Operand} {s : State} {k : Word}
    (h : (resolve x s).target = .mem k) : (resolve x s).value = s.readMem k := by
  cases x <;> cases h <;> rfl

theorem readsOf_fetchPort (s : State) : ReadsOf s.mem (fetchPort s) :=
  ReadsOf.singleton s.mem s.pc

theorem readsOf_resolvePort (x : Operand) (s : State) : ReadsOf s.mem (resolvePort x s) := by
  refine ReadsOf.append ?_ ?_
  · split
    · exact readsOf_fetchPort s
    · exact ReadsOf.nil _
  · split
    · next k hk =>
      rw [resolve_value_of_target_eq_mem hk]
      exact ReadsOf.singleton s.mem k
    · exact ReadsOf.nil _

theorem readsOf_resolvePorts (xs : List Operand) (s : State) :
    ReadsOf s.mem (resolvePorts xs s) := by
  induction xs generalizing s with
  | nil => exact ReadsOf.nil _
  | cons x xs ih => exact (readsOf_resolvePort x s).append (resolve_mem x s ▸ ih _)

theorem readsOf_skipPort (s : State) : ReadsOf s.mem (skipPort s) :=
  (readsOf_fetchPort s).append (readsOf_resolvePorts _ (nextWord s).2)

/-- Every read of a step is of the memory the step starts from (20_memory.md R39, R40). -/
theorem readsOf_stepReads (s : State) : ReadsOf s.mem (stepReads s) := by
  rw [stepReads_eq]
  refine (readsOf_skipPort s).append ?_
  split
  · have hskipped :=
      readsOf_skipPort (resolveAll (decode (s.readMem s.pc)).operands (nextWord s).2)
    rwa [resolveAll_mem] at hskipped
  · exact ReadsOf.nil _

end Sys2Proof.Machine
end

section
/-! PROOFS. The statements about memory (20_memory.md). -/

namespace Sys2Proof.Proofs

open Sys2Proof.Machine Sys2Proof.Safety

/-- Settles O54: a store and a host's write both leave the word at the address where it is fetched. -/
theorem storeIsSeenByTheNextFetch : Obligations.StoreIsSeenByTheNextFetch := by
  refine ⟨fun i s k hk => ?_, fun s u k v hmem hpc => fetchesWord_of_mem_eq_write hmem hpc⟩
  obtain ⟨t, v, ht, hv, hmem⟩ := exec_store i s k hk
  exact ⟨t, v, ht, hv, fun u hu hpc => fetchesWord_of_mem_eq_write (hu.trans hmem) hpc⟩

/-- Settles O59: the reads are of the memory before, and the one write is all that changes it. -/
theorem portAccessesAccountForMemory : Obligations.PortAccessesAccountForMemory := by
  intro s t ht
  have hreads := readsOf_stepReads s
  refine ⟨fun k v h => ?_, fun k v h => ?_, fun k _ => ?_⟩
  · rcases List.mem_append.1 h with h | h
    · obtain ⟨_, ⟨⟩⟩ := hreads _ h
      rfl
    · obtain ⟨_, _, _, _, ⟨⟩⟩ := mem_writePort_iff.1 h
  · rcases List.mem_append.1 h with h | h
    · obtain ⟨_, ⟨⟩⟩ := hreads _ h
    · exact (readMem_of_write_mem_writePort ht h).symm
  · have hmem : replay (portTrace s) s.mem = t.mem :=
      (hreads.replay_append _ _).trans (replay_writePort ht)
    rw [hmem]

/-- Settles O53: the sums and differences of words wrap, and only an unrecognized instruction's arm
faults. -/
theorem addressesWrapAndNeverFault : Obligations.AddressesWrapAndNeverFault := by
  intro s
  have hpush : (s.sp - 1).toNat = (s.sp.toNat + 65535) % 65536 := by bv_omega
  refine ⟨fun r => congrArg Target.mem ?_, BitVec.toNat_add s.pc 1, BitVec.toNat_add s.sp 1, hpush, hpush,
    fun f hf => eq_unrecognized_of_exec_eq_fault hf⟩
  apply BitVec.eq_of_toNat_eq
  simp

end Sys2Proof.Proofs
end

section
/-! SUPPORT. The encoder and the decoder as inverses, in two layers: a word and its fields
(30_encoding.md R51 to R53), and the fields and their instruction (R56, R57). -/

namespace Sys2Proof

/-! ## The three slices of a word -/

theorem toNat_lowBits (w : Word) : (w.extractLsb' 0 4).toNat = w.toNat % 16 := by
  simp [BitVec.extractLsb'_toNat]

theorem toNat_middleBits (w : Word) : (w.extractLsb' 4 6).toNat = w.toNat / 16 % 64 := by
  simp [BitVec.extractLsb'_toNat, Nat.shiftRight_eq_div_pow]

theorem toNat_highBits (w : Word) : (w.extractLsb' 10 6).toNat = w.toNat / 1024 := by
  have hw := w.isLt
  simp only [BitVec.extractLsb'_toNat, Nat.shiftRight_eq_div_pow]
  omega

theorem lowBits_eq_zero_iff (w : Word) : w.extractLsb' 0 4 = 0 ↔ w.toNat % 16 = 0 := by
  rw [← toNat_lowBits]
  exact BitVec.toNat_inj.symm

/-! ## Words and fields -/

theorem fieldsOf_of_lowBits_ne_zero {w : Word} (h : w.extractLsb' 0 4 ≠ 0) :
    fieldsOf w = .basic (w.extractLsb' 0 4) (w.extractLsb' 4 6) (w.extractLsb' 10 6) :=
  if_neg h

theorem fieldsOf_of_lowBits_eq_zero {w : Word} (h : w.extractLsb' 0 4 = 0) :
    fieldsOf w = .nonBasic (w.extractLsb' 4 6) (w.extractLsb' 10 6) :=
  if_pos h

theorem toNat_wordOf_basic (o : BitVec 4) (a b : BitVec 6) :
    (wordOf (.basic o a b)).toNat = b.toNat * 1024 + a.toNat * 16 + o.toNat :=
  Nat.mod_eq_of_lt (by omega)

theorem toNat_wordOf_nonBasic (n a : BitVec 6) :
    (wordOf (.nonBasic n a)).toNat = a.toNat * 1024 + n.toNat * 16 :=
  Nat.mod_eq_of_lt (by omega)

/-- The fields that a representable term's word is split into are that term. -/
theorem fieldsOf_wordOf {f : Fields} (h : f.wf = true) : fieldsOf (wordOf f) = f := by
  cases f with
  | basic o a b =>
    have hw := toNat_wordOf_basic o a b
    have hlow : (wordOf (.basic o a b)).extractLsb' 0 4 = o :=
      BitVec.eq_of_toNat_eq (by rw [toNat_lowBits]; omega)
    have hmiddle : (wordOf (.basic o a b)).extractLsb' 4 6 = a :=
      BitVec.eq_of_toNat_eq (by rw [toNat_middleBits]; omega)
    have hhigh : (wordOf (.basic o a b)).extractLsb' 10 6 = b :=
      BitVec.eq_of_toNat_eq (by rw [toNat_highBits]; omega)
    have ho : o ≠ 0 := bne_iff_ne.1 h
    rw [fieldsOf_of_lowBits_ne_zero (by rwa [hlow]), hlow, hmiddle, hhigh]
  | nonBasic n a =>
    have hw := toNat_wordOf_nonBasic n a
    have hlow : (wordOf (.nonBasic n a)).extractLsb' 0 4 = 0 := by
      rw [lowBits_eq_zero_iff]
      omega
    have hmiddle : (wordOf (.nonBasic n a)).extractLsb' 4 6 = n :=
      BitVec.eq_of_toNat_eq (by rw [toNat_middleBits]; omega)
    have hhigh : (wordOf (.nonBasic n a)).extractLsb' 10 6 = a :=
      BitVec.eq_of_toNat_eq (by rw [toNat_highBits]; omega)
    rw [fieldsOf_of_lowBits_eq_zero hlow, hmiddle, hhigh]

/-- The three slices hold every bit of the word. -/
@[simp] theorem wordOf_fieldsOf (w : Word) : wordOf (fieldsOf w) = w := by
  have hlow := toNat_lowBits w
  have hmiddle := toNat_middleBits w
  have hhigh := toNat_highBits w
  apply BitVec.eq_of_toNat_eq
  by_cases h : w.extractLsb' 0 4 = 0
  · rw [fieldsOf_of_lowBits_eq_zero h, toNat_wordOf_nonBasic]
    have hzero := (lowBits_eq_zero_iff w).1 h
    omega
  · rw [fieldsOf_of_lowBits_ne_zero h, toNat_wordOf_basic]
    omega

@[simp] theorem wf_fieldsOf (w : Word) : (fieldsOf w).wf = true := by
  by_cases h : w.extractLsb' 0 4 = 0
  · rw [fieldsOf_of_lowBits_eq_zero h]
    rfl
  · rw [fieldsOf_of_lowBits_ne_zero h]
    exact bne_iff_ne.2 h

/-! ## Fields and instructions -/

/-- Even an ill-formed instruction has representable fields. -/
@[simp] theorem Instr.wf_fields (i : Instr) : i.fields.wf = true := by
  cases i <;> rfl

theorem instrOf_fields {i : Instr} (h : i.wf = true) : instrOf i.fields = i := by
  cases i with
  | unrecognized n a =>
    have hn : n ≠ 0x01 := bne_iff_ne.1 h
    rw [Instr.fields, instrOf, nonBasicInstr, if_neg hn, Operand.ofCode_code]
  | jsr a => simp [Instr.fields, instrOf, nonBasicInstr]
  | _ => simp [Instr.fields, instrOf]

theorem fields_nonBasicInstr (n a : BitVec 6) :
    (nonBasicInstr n (.ofCode a)).fields = .nonBasic n a := by
  unfold nonBasicInstr
  split
  · next hn => simp [Instr.fields, hn]
  · simp [Instr.fields]

theorem fields_instrOf {f : Fields} (h : f.wf = true) : (instrOf f).fields = f := by
  cases f with
  | nonBasic n a => exact fields_nonBasicInstr n a
  | basic o a b =>
    have hlt := o.isLt
    have hne : o.toNat ≠ 0 := fun h0 => bne_iff_ne.1 h (BitVec.eq_of_toNat_eq h0)
    simp only [instrOf]
    split
    case h_16 =>
      exfalso
      simp only [imp_false] at *
      omega
    all_goals
      next ho =>
      simp only [Instr.fields, Operand.code_ofCode, Fields.basic.injEq, and_true]
      exact BitVec.eq_of_toNat_eq ho.symm

theorem wf_nonBasicInstr (n : BitVec 6) (a : Operand) : (nonBasicInstr n a).wf = true := by
  unfold nonBasicInstr
  split
  · rfl
  · next hn => exact bne_iff_ne.2 hn

theorem wf_instrOf (f : Fields) : (instrOf f).wf = true := by
  cases f with
  | nonBasic n a => exact wf_nonBasicInstr n _
  | basic o a b =>
    simp only [instrOf]
    split
    case h_16 => exact wf_nonBasicInstr a _
    all_goals rfl

/-! ## Words and instructions -/

theorem decode_encode {i : Instr} (h : i.wf = true) : decode (encode i) = i := by
  rw [decode, encode, fieldsOf_wordOf i.wf_fields, instrOf_fields h]

@[simp] theorem encode_decode (w : Word) : encode (decode w) = w := by
  rw [encode, decode, fields_instrOf (wf_fieldsOf w), wordOf_fieldsOf]

@[simp] theorem wf_decode (w : Word) : (decode w).wf = true :=
  wf_instrOf _

/-- The word of an instruction keeps its operands, also that of the ill-formed `unrecognized 0x01 a`,
which decodes to JSR. -/
theorem operands_decode_encode (i : Instr) : (decode (encode i)).operands = i.operands := by
  cases i with
  | unrecognized n a =>
    rw [decode, encode, fieldsOf_wordOf (Instr.wf_fields _), Instr.fields, operands_instrOf_nonBasic,
      Operand.ofCode_code]
    rfl
  | _ => rw [decode_encode rfl]

theorem length_eq_wordLength_encode (i : Instr) : i.length = wordLength (encode i) := by
  rw [← length_decode, Instr.length, Instr.length, operands_decode_encode]

/-! ## The rows of the opcode table as masks -/

theorem toNat_and_low4 (w : Word) : (w &&& 0x000F).toNat = w.toNat % 16 :=
  Nat.and_two_pow_sub_one_eq_mod w.toNat 4

theorem toNat_and_low10 (w : Word) : (w &&& 0x03FF).toNat = w.toNat % 1024 :=
  Nat.and_two_pow_sub_one_eq_mod w.toNat 10

/-- A basic row matches by the word's low four bits. -/
theorem decode_of_low4_eq {w : Word} (o : BitVec 4) (ho : o ≠ 0) (h : w &&& 0x000F = o.setWidth 16) :
    decode w = instrOf (.basic o (w.extractLsb' 4 6) (w.extractLsb' 10 6)) := by
  have hlow : w.extractLsb' 0 4 = o := by
    apply BitVec.eq_of_toNat_eq
    rw [toNat_lowBits, ← toNat_and_low4, h]
    exact BitVec.toNat_setWidth_of_le (by decide)
  rw [decode, fieldsOf_of_lowBits_ne_zero (by rwa [hlow]), hlow]

theorem decode_of_low4_eq_zero {w : Word} (h : w &&& 0x000F = 0x0000) :
    decode w = nonBasicInstr (w.extractLsb' 4 6) (.ofCode (w.extractLsb' 10 6)) := by
  have hlow : w.extractLsb' 0 4 = 0 := by
    rw [lowBits_eq_zero_iff, ← toNat_and_low4, h]
    rfl
  rw [decode, fieldsOf_of_lowBits_eq_zero hlow]
  rfl

/-- JSR's mask is the mask of the non-basic form together with its opcode. -/
theorem low10_eq_jsr_iff (w : Word) :
    w &&& 0x03FF = 0x0010 ↔ w &&& 0x000F = 0x0000 ∧ w.extractLsb' 4 6 = 0x01 := by
  rw [← BitVec.toNat_inj, ← BitVec.toNat_inj, ← BitVec.toNat_inj, toNat_and_low10, toNat_and_low4,
    toNat_middleBits]
  show w.toNat % 1024 = 16 ↔ w.toNat % 16 = 0 ∧ w.toNat / 16 % 64 = 1
  omega

theorem decode_of_low10_eq_jsr {w : Word} (h : w &&& 0x03FF = 0x0010) :
    decode w = .jsr (.ofCode (w.extractLsb' 10 6)) := by
  obtain ⟨hlow, hn⟩ := (low10_eq_jsr_iff w).1 h
  rw [decode_of_low4_eq_zero hlow, nonBasicInstr, if_pos hn]

theorem decode_of_unrecognized {w : Word} (hlow : w &&& 0x000F = 0x0000) (h : w &&& 0x03FF ≠ 0x0010) :
    decode w = .unrecognized (w.extractLsb' 4 6) (.ofCode (w.extractLsb' 10 6)) := by
  have hn : w.extractLsb' 4 6 ≠ 0x01 := fun hn => h ((low10_eq_jsr_iff w).2 ⟨hlow, hn⟩)
  rw [decode_of_low4_eq_zero hlow, nonBasicInstr, if_neg hn]

end Sys2Proof
end

section
/-! PROOFS. The statements about the encoding (30_encoding.md). -/

namespace Sys2Proof.Proofs

open Sys2Proof.Machine

/-- Settles O1: each form's fields are the slices of the word. -/
theorem wordFieldsFollowLayout : Obligations.WordFieldsFollowLayout := by
  intro w
  refine ⟨fun h => ?_, fun h => ?_⟩
  · have hlow := mt (lowBits_eq_zero_iff w).1 h
    exact ⟨_, _, _, fieldsOf_of_lowBits_ne_zero hlow, toNat_lowBits w, toNat_middleBits w,
      toNat_highBits w⟩
  · have hlow := (lowBits_eq_zero_iff w).2 h
    exact ⟨_, _, fieldsOf_of_lowBits_eq_zero hlow, toNat_middleBits w, toNat_highBits w⟩

/-- Settles O2; each direction is a lemma. -/
theorem fieldsEncodeDecodeInverse : Obligations.FieldsEncodeDecodeInverse :=
  ⟨fun _ => fieldsOf_wordOf, fun w => ⟨wordOf_fieldsOf w, wf_fieldsOf w⟩⟩

/-- Settles O3, from the inverses between words and fields and between fields and instructions. -/
theorem instrEncodeDecodeInverse : Obligations.InstrEncodeDecodeInverse :=
  ⟨fun _ => decode_encode, fun w => ⟨encode_decode w, wf_decode w⟩⟩

/-- Settles O4: the decoder evaluated on ten words. -/
theorem workedWordsDecode : Obligations.WorkedWordsDecode := by
  unfold Obligations.WorkedWordsDecode
  decide

/-- Settles O6: the fifteen basic rows match by the opcode in the low four bits, the other two by the
non-basic opcode as well. -/
theorem decodeFollowsOpcodeTable : Obligations.DecodeFollowsOpcodeTable := fun _ =>
  ⟨decode_of_low4_eq 0x1 (by decide), decode_of_low4_eq 0x2 (by decide),
    decode_of_low4_eq 0x3 (by decide), decode_of_low4_eq 0x4 (by decide),
    decode_of_low4_eq 0x5 (by decide), decode_of_low4_eq 0x6 (by decide),
    decode_of_low4_eq 0x7 (by decide), decode_of_low4_eq 0x8 (by decide),
    decode_of_low4_eq 0x9 (by decide), decode_of_low4_eq 0xa (by decide),
    decode_of_low4_eq 0xb (by decide), decode_of_low4_eq 0xc (by decide),
    decode_of_low4_eq 0xd (by decide), decode_of_low4_eq 0xe (by decide),
    decode_of_low4_eq 0xf (by decide), decode_of_low10_eq_jsr, decode_of_unrecognized⟩

/-- Settles O7: the word keeps the operands, and so the length; PC moves by their extra words. -/
theorem pcPassesTheWholeInstruction : Obligations.PcPassesTheWholeInstruction := by
  intro i s
  refine ⟨length_eq_wordLength_encode i, ?_⟩
  rw [resolveAll_pc, Instr.length, Nat.add_sub_cancel_left]
  simp

end Sys2Proof.Proofs
end

section
/-! SUPPORT. The operand codes 0x00 to 0x17 by their register, and what a resolution gives: the places it
names, and the moves of PC and SP that are all its side effects (40_step_and_operands.md R75). -/

namespace Sys2Proof

@[simp] theorem Reg.num_ofNum (n : BitVec 3) : (Reg.ofNum n).num = n := by
  revert n
  decide

/-- The table read from code to meaning and from meaning to code says the same. -/
theorem Operand.ofCode_eq_iff (c : BitVec 6) (x : Operand) : Operand.ofCode c = x ↔ c = x.code :=
  ⟨fun h => h ▸ (Operand.code_ofCode c).symm, fun h => h ▸ Operand.ofCode_code x⟩

theorem Operand.ofCode_reg (i : BitVec 3) :
    Operand.ofCode (BitVec.ofNat 6 i.toNat) = .reg (.ofNum i) := by
  simp [Operand.ofCode_eq_iff, Operand.code]

theorem Operand.ofCode_regInd (i : BitVec 3) :
    Operand.ofCode (BitVec.ofNat 6 (0x08 + i.toNat)) = .regInd (.ofNum i) := by
  simp [Operand.ofCode_eq_iff, Operand.code]

theorem Operand.ofCode_regIdx (i : BitVec 3) :
    Operand.ofCode (BitVec.ofNat 6 (0x10 + i.toNat)) = .regIdx (.ofNum i) := by
  simp [Operand.ofCode_eq_iff, Operand.code]

end Sys2Proof

namespace Sys2Proof.Machine

open Sys2Proof.Safety

/-! ## One resolution -/

/-- An operand with an extra word has no side effect but consuming it. -/
theorem resolve_state_of_extraWords_eq_one {x : Operand} (h : x.extraWords = 1) (s : State) :
    (resolve x s).state = (nextWord s).2 := by
  cases x with
  | regIdx | nextInd | nextLit => rfl
  | _ => cases h

theorem resolve_sp (x : Operand) (s : State) :
    (resolve x s).state.sp =
      if x = .pop then s.sp + 1 else if x = .push then s.sp - 1 else s.sp := by
  cases x <;> rfl

/-- PC moves on by one exactly for the codes with an extra word (30_encoding.md R60). -/
theorem resolve_ofCode_pc (c : BitVec 6) (s : State) :
    (resolve (.ofCode c) s).state.pc = if codeExtra c = 1 then s.pc + 1 else s.pc := by
  rw [resolve_pc, Operand.extraWords_ofCode]
  unfold codeExtra
  split <;> simp

theorem resolve_ofCode_sp (c : BitVec 6) (s : State) :
    (resolve (.ofCode c) s).state.sp =
      if c = 0x18 then s.sp + 1 else if c = 0x1a then s.sp - 1 else s.sp := by
  simp [resolve_sp, Operand.ofCode_eq_iff, Operand.code]

/-- The value is what the target held before the resolution. -/
theorem resolve_value_of_readTarget {x : Operand} {s : State} {v : Word}
    (h : readTarget (resolve x s).target s = some v) : (resolve x s).value = v := by
  cases x <;> cases h <;> rfl

theorem eq_sp_of_resolve_target {x : Operand} {s : State} (h : (resolve x s).target = .sp) :
    x = .sp := by
  cases x with
  | sp => rfl
  | _ => cases h

theorem eq_o_of_resolve_target {x : Operand} {s : State} (h : (resolve x s).target = .o) :
    x = .o := by
  cases x with
  | o => rfl
  | _ => cases h

/-! ## All operands of an instruction -/

@[simp] theorem resolveAll_regs (xs : List Operand) (s : State) : (resolveAll xs s).regs = s.regs := by
  induction xs generalizing s with
  | nil => rfl
  | cons x xs ih => simp [resolveAll, ih]

@[simp] theorem resolveAll_o (xs : List Operand) (s : State) : (resolveAll xs s).o = s.o := by
  induction xs generalizing s with
  | nil => rfl
  | cons x xs ih => simp [resolveAll, ih]

@[simp] theorem resolveAll_readMem (xs : List Operand) (s : State) (k : Word) :
    (resolveAll xs s).readMem k = s.readMem k := by
  simp [State.readMem]

/-- Only POP and PUSH move SP (10_state.md R18). -/
theorem exists_movesSp_of_resolveAll_sp_ne {xs : List Operand} {s : State}
    (h : (resolveAll xs s).sp ≠ s.sp) : ∃ x ∈ xs, movesSp x = true := by
  induction xs generalizing s with
  | nil => exact absurd rfl h
  | cons x xs ih =>
    cases hx : movesSp x with
    | true => exact ⟨x, List.mem_cons_self, hx⟩
    | false =>
      rw [← resolve_sp_of_movesSp_eq_false hx s] at h
      obtain ⟨y, hy, hmoves⟩ := ih h
      exact ⟨y, List.mem_cons_of_mem x hy, hmoves⟩

/-! ## The skip -/

theorem skip_of_basic {s : State} {o : BitVec 4} {a b : BitVec 6}
    (h : fieldsOf (s.readMem s.pc) = .basic o a b) :
    skip s = (resolve2 (.ofCode a) (.ofCode b) (nextWord s).2).state := by
  simp [skip, h]

theorem skip_of_nonBasic {s : State} {n a : BitVec 6}
    (h : fieldsOf (s.readMem s.pc) = .nonBasic n a) :
    skip s = (resolve (.ofCode a) (nextWord s).2).state := by
  simp [skip, h]

/-- A skip resolves the operands of the instruction it passes over, and does nothing else
(43_conditional_skip.md R125, R126). -/
theorem skip_eq_resolveAll (s : State) :
    skip s = resolveAll (decode (s.readMem s.pc)).operands (nextWord s).2 := by
  have hwf := wf_fieldsOf (s.readMem s.pc)
  unfold decode
  cases h : fieldsOf (s.readMem s.pc) with
  | basic o a b =>
    rw [h] at hwf
    rw [skip_of_basic h, operands_instrOf_basic a b (bne_iff_ne.1 hwf)]
    rfl
  | nonBasic n a =>
    rw [skip_of_nonBasic h, operands_instrOf_nonBasic]
    rfl

end Sys2Proof.Machine
end

section
/-! SUPPORT. The values that the O-writing instructions give O, in arithmetic of exact numbers
(41_set_arith.md R102 to R104, 42_shift_logic.md R110, R111). -/

namespace Sys2Proof.Machine

theorem subOverflow_eq (av bv : Word) :
    subOverflow av bv = if av.toNat < bv.toNat then 0xFFFF else 0 := by
  simp [subOverflow, difference]

theorem toNat_mulOverflow (av bv : Word) :
    (mulOverflow av bv).toNat = av.toNat * bv.toNat / 65536 := by
  have hprod : av.toNat * bv.toNat < 65536 * 65536 := Nat.mul_lt_mul'' av.isLt bv.isLt
  simp only [mulOverflow, BitVec.toNat_ofNat, Nat.shiftRight_eq_div_pow]
  omega

theorem toNat_divOverflow (av bv : Word) :
    (divOverflow av bv).toNat = if bv = 0 then 0 else av.toNat * 65536 / bv.toNat % 65536 := by
  unfold divOverflow
  split <;> rfl

theorem toNat_shlOverflow (av bv : Word) :
    (shlOverflow av bv).toNat = av.toNat * 2 ^ bv.toNat / 65536 % 65536 := by
  simp only [shlOverflow, BitVec.toNat_ofNat, Nat.shiftRight_eq_div_pow, Nat.shiftLeft_eq]

theorem toNat_shrOverflow (av bv : Word) :
    (shrOverflow av bv).toNat = av.toNat * 65536 / 2 ^ bv.toNat % 65536 := by
  simp only [shrOverflow, BitVec.toNat_ofNat, Nat.shiftRight_eq_div_pow]

end Sys2Proof.Machine
end

section
/-! SUPPORT. What a write-back does to every place, and what each class of instruction answers: the
writing instructions, the conditionals, JSR and the unrecognized ones. -/

namespace Sys2Proof.Machine

open Sys2Proof.Safety

/-! ## Write-back -/

/-- Everything a write-back does to what targets hold (40_step_and_operands.md R90). -/
theorem readTarget_writeTarget {u : Target} (hu : u ≠ .none) (t : Target) (v : Word) (s : State) :
    readTarget u (writeTarget t v s) = if t = u then some v else readTarget u s := by
  cases u with
  | none => exact absurd rfl hu
  | reg r => simp only [readTarget, readReg_writeTarget]; split <;> rfl
  | sp => simp only [readTarget, sp_writeTarget]; split <;> rfl
  | pc => simp only [readTarget, pc_writeTarget]; split <;> rfl
  | o => simp only [readTarget, o_writeTarget]; split <;> rfl
  | mem k => simp only [readTarget, readMem_writeTarget]; split <;> rfl

/-! ## The classes of instruction -/

theorem writing_or_testing_or_nonBasic (i : Instr) :
    (∃ a b, writingOperands i = some (a, b)) ∨ (∃ a b, testingOperands i = some (a, b)) ∨
      (∃ a, i = .jsr a) ∨ ∃ n a, i = .unrecognized n a := by
  cases i
  case ife a b | ifn a b | ifg a b | ifb a b => exact .inr (.inl ⟨a, b, rfl⟩)
  case jsr a => exact .inr (.inr (.inl ⟨a, rfl⟩))
  case unrecognized n a => exact .inr (.inr (.inr ⟨n, a, rfl⟩))
  all_goals exact .inl ⟨_, _, rfl⟩

theorem operands_of_writingOperands {i : Instr} {a b : Operand}
    (h : writingOperands i = some (a, b)) : i.operands = [a, b] := by
  cases i <;> cases h <;> rfl

theorem exec_set (a b : Operand) (s : State) :
    exec (.set a b) s =
      .next (writeTarget (resolve2 a b s).dst (resolve2 a b s).bv (resolve2 a b s).state) :=
  rfl

/-- `SET PUSH, b` puts b's value on the stack, for a source that does not itself move SP. -/
theorem exec_set_push {b : Operand} (hb : movesSp b = false) (s : State) :
    ∃ t, exec (.set .push b) s = .next t ∧ t.sp = s.sp - 1 ∧
      t.readMem t.sp = (resolve2 .push b s).bv := by
  have hsp : (resolve2 .push b s).state.sp = s.sp - 1 := resolve_sp_of_movesSp_eq_false hb _
  refine ⟨_, exec_set .push b s, hsp, ?_⟩
  rw [readMem_writeTarget]
  exact if_pos (congrArg Target.mem hsp.symm)

/-- `SET q, POP` takes the word on top of the stack. -/
theorem exec_set_reg_pop (q : Reg) (s : State) :
    ∃ t, exec (.set (.reg q) .pop) s = .next t ∧ t.readReg q = s.readMem s.sp ∧ t.sp = s.sp + 1 :=
  ⟨_, exec_set (.reg q) .pop s, State.readReg_writeReg_same _ q _, rfl⟩

/-- An O-writer leaves its overflow value in O, even where O is its destination
(40_step_and_operands.md R92; D5). -/
theorem o_of_execResultO {result overflow : Word → Word → Word} {a b : Operand} {s t : State}
    (h : execResultO result overflow a b s = .next t) :
    t.o = overflow (resolve2 a b s).av (resolve2 a b s).bv := by
  cases h
  rfl

/-- All that a conditional does: its own resolutions, and the skip where its test fails
(43_conditional_skip.md R127). -/
theorem exec_of_testingOperands {i : Instr} {a b : Operand}
    (h : testingOperands i = some (a, b)) (s : State) :
    exec i s = .next (if skips i s then skip (resolveAll i.operands s)
      else resolveAll i.operands s) := by
  cases i <;> cases h
  all_goals
    refine congrArg Host.Outcome.next ?_
    simp only [skips, Bool.not_eq_true', ← Bool.not_eq_true, ite_not]
    rfl

/-! ## What a completed instruction changes -/

theorem readMem_of_storeAddr_ne {i : Instr} {s t : State} {k : Word} (ht : exec i s = .next t)
    (hk : storeAddr i s ≠ some k) : t.readMem k = s.readMem k := by
  cases hj : storeAddr i s with
  | none => rw [State.readMem, exec_mem_of_storeAddr_eq_none hj ht, State.readMem]
  | some j =>
    obtain ⟨t', v, ht', -, hmem⟩ := exec_store i s j hj
    cases ht.symm.trans ht'
    have hne : k ≠ j := fun h => hk (h ▸ hj)
    rw [State.readMem, hmem]
    exact State.readMem_writeMem_other s v hne

/-- Only a writing instruction changes a general register or O (10_state.md R12, R14; D4). -/
theorem regs_o_of_writingOperands_eq_none {i : Instr} {s t : State} (ht : exec i s = .next t)
    (hi : writingOperands i = none) : t.regs = s.regs ∧ t.o = s.o := by
  rcases writing_or_testing_or_nonBasic i with ⟨a, b, h⟩ | ⟨a, b, h⟩ | ⟨a, rfl⟩ | ⟨n, a, rfl⟩
  · cases hi.symm.trans h
  · rw [exec_of_testingOperands h, Host.Outcome.next.injEq] at ht
    subst ht
    split <;> simp
  · cases ht
    simp
  · cases ht

/-- A general register changes only as the destination of a writing instruction (10_state.md R12). -/
theorem target_eq_reg_of_readReg_ne {i : Instr} {s t : State} {q : Reg} (ht : exec i s = .next t)
    (hq : t.readReg q ≠ s.readReg q) :
    ∃ a b, writingOperands i = some (a, b) ∧ (resolve a s).target = .reg q := by
  cases hi : writingOperands i with
  | none => exact absurd (congrArg (·.read q) (regs_o_of_writingOperands_eq_none ht hi).1) hq
  | some p =>
    obtain ⟨hreg, -⟩ := Proofs.writingInstructionsFrame i p.1 p.2 s t hi ht
    exact ⟨p.1, p.2, rfl, not_imp_comm.1 (hreg q) hq⟩

/-- At most one general register changes. -/
theorem eq_of_readReg_ne {i : Instr} {s t : State} {p q : Reg} (ht : exec i s = .next t)
    (hp : t.readReg p ≠ s.readReg p) (hq : t.readReg q ≠ s.readReg q) : p = q := by
  obtain ⟨a, b, hi, htarget⟩ := target_eq_reg_of_readReg_ne ht hp
  obtain ⟨a', b', hi', htarget'⟩ := target_eq_reg_of_readReg_ne ht hq
  cases hi.symm.trans hi'
  cases htarget.symm.trans htarget'
  rfl

/-- Where a general register is the destination, no cell is. -/
theorem mem_of_readReg_ne {i : Instr} {s t : State} {q : Reg} (ht : exec i s = .next t)
    (hq : t.readReg q ≠ s.readReg q) : t.mem = s.mem := by
  obtain ⟨a, b, hi, htarget⟩ := target_eq_reg_of_readReg_ne ht hq
  have hstore : storeAddr i s = none := by
    rw [storeAddr_of_writingOperands hi, htarget]
    rfl
  exact exec_mem_of_storeAddr_eq_none hstore ht

/-- O changes only by an O-writer or as a destination (10_state.md R14). -/
theorem writesO_or_eq_o_of_o_ne {i : Instr} {s t : State} (ht : exec i s = .next t)
    (ho : t.o ≠ s.o) : writesO i = true ∨ ∃ b, writingOperands i = some (.o, b) := by
  cases hi : writingOperands i with
  | none => exact absurd (regs_o_of_writingOperands_eq_none ht hi).2 ho
  | some p =>
    obtain ⟨-, -, -, hframe, -⟩ := Proofs.writingInstructionsFrame i p.1 p.2 s t hi ht
    by_cases htarget : (resolve p.1 s).target = .o
    · exact .inr ⟨p.2, by rw [← eq_o_of_resolve_target htarget]⟩
    · exact .inl (eq_true_of_ne_false fun hw => ho (hframe htarget hw))

/-- SP changes only by JSR, as a destination, or by a POP or PUSH of the instruction or of the one it
skips (10_state.md R18). -/
theorem sp_ne_cases {i : Instr} {s t : State} (ht : exec i s = .next t) (hsp : t.sp ≠ s.sp) :
    (∃ a, i = .jsr a) ∨ (∃ b, writingOperands i = some (.sp, b)) ∨
    (∃ x ∈ i.operands, movesSp x = true) ∨
    (skips i s = true ∧
      ∃ x ∈ (decode (s.readMem (resolveAll i.operands s).pc)).operands, movesSp x = true) := by
  by_cases hown : (resolveAll i.operands s).sp = s.sp
  case neg => exact .inr (.inr (.inl (exists_movesSp_of_resolveAll_sp_ne hown)))
  rcases writing_or_testing_or_nonBasic i with ⟨a, b, h⟩ | ⟨a, b, h⟩ | ⟨a, rfl⟩ | ⟨n, a, rfl⟩
  · obtain ⟨-, hframe, -⟩ := Proofs.writingInstructionsFrame i a b s t h ht
    rw [operands_of_writingOperands h] at hown
    have htarget : (resolve a s).target = .sp :=
      by_contra fun hne => hsp ((hframe hne).trans hown)
    exact .inr (.inl ⟨b, eq_sp_of_resolve_target htarget ▸ h⟩)
  · rw [exec_of_testingOperands h, Host.Outcome.next.injEq] at ht
    subst ht
    split at hsp
    · next hskips =>
      rw [skip_eq_resolveAll, resolveAll_readMem, ← hown] at hsp
      exact .inr (.inr (.inr ⟨hskips, exists_movesSp_of_resolveAll_sp_ne hsp⟩))
    · exact absurd hown hsp
  · exact .inl ⟨a, rfl⟩
  · cases ht

end Sys2Proof.Machine
end

section
/-! PROOFS. The statements about the step and the operands (40_step_and_operands.md). -/

namespace Sys2Proof.Proofs

open Sys2Proof.Machine Sys2Proof.Safety

/-! ## The resolver -/

/-- Settles O25, from the frame of a resolution and what it does to PC, to SP and to the value. -/
theorem resolverSideEffects : Obligations.ResolverSideEffects := fun c s =>
  ⟨resolve_regs _ s, resolve_o _ s, resolve_mem _ s, resolve_ofCode_pc c s, resolve_ofCode_sp c s,
    fun _ => resolve_value_of_readTarget⟩

/-! ## Write-back -/

/-- Settles O27, from the rule for reading any target after a write-back. -/
theorem writeBackChangesOnlyItsTarget : Obligations.WriteBackChangesOnlyItsTarget := by
  refine fun t v s => ⟨fun ht => ?_, fun u hu => ?_, rfl⟩
  · rw [readTarget_writeTarget ht, if_pos rfl]
  · by_cases hnone : u = .none
    · rw [hnone]
      rfl
    · rw [readTarget_writeTarget hnone, if_neg hu.symm]

/-- Settles O28: a literal names no target, so the write-back leaves the state of the two resolutions and
only an O-writer's overflow value is added. -/
theorem literalDestinationDropsTheResult : Obligations.LiteralDestinationDropsTheResult := by
  intro i a b s hi hlit
  have htarget : (resolve a s).target = .none := by
    rcases hlit with rfl | ⟨v, rfl⟩ <;> rfl
  obtain ⟨v, o, -, hexec, hkeep⟩ := exec_of_writingOperands hi s
  rw [htarget] at hexec hkeep
  have ho : ∀ {result overflow : Word → Word → Word}, exec i s = execResultO result overflow a b s →
      o = overflow (resolve2 a b s).av (resolve2 a b s).bv :=
    fun h => o_of_execResultO (h.symm.trans hexec)
  refine ⟨?_, ?_, _, hexec, resolve2_regs a b s, resolve2_mem a b s, rfl, rfl,
    fun h => (hkeep h).trans (resolve2_o a b s), ?_, ?_, ?_, ?_, ?_, ?_⟩
  · rintro rfl
    rfl
  · rintro v rfl
    exact BitVec.toNat_setWidth_of_le (by decide)
  · rintro rfl
    exact ho (result := addResult) rfl
  · rintro rfl
    exact (ho (result := subResult) rfl).trans (subOverflow_eq _ _)
  · rintro rfl
    exact (congrArg _ (ho (result := mulResult) rfl)).trans (toNat_mulOverflow _ _)
  · rintro rfl
    exact (congrArg _ (ho (result := divResult) rfl)).trans (toNat_divOverflow _ _)
  · rintro rfl
    exact (congrArg _ (ho (result := shlResult) rfl)).trans (toNat_shlOverflow _ _)
  · rintro rfl
    exact (congrArg _ (ho (result := shrResult) rfl)).trans (toNat_shrOverflow _ _)

/-! ## Whole steps -/

/-- Settles O52: what an instruction changes of each part of the state, from the state after the fetch,
which has changed PC only. -/
theorem stepChangesAtMost : Obligations.StepChangesAtMost := by
  intro s t hstep
  have ht : exec (decode (s.readMem s.pc)) (s.setPc (s.pc + 1)) = .next t := hstep
  refine ⟨fun k hk => ?_, fun p q hp hq => ?_, fun p k hp => ?_, fun ho => ?_, fun hsp => ?_⟩
  · rw [readMem_of_storeAddr_ne ht hk, State.setPc_readMem]
  · rw [← State.setPc_readReg s (s.pc + 1)] at hp hq
    exact eq_of_readReg_ne ht hp hq
  · rw [← State.setPc_readReg s (s.pc + 1)] at hp
    rw [State.readMem, mem_of_readReg_ne ht hp, State.setPc_mem, State.readMem]
  · rw [← State.setPc_o s (s.pc + 1)] at ho
    exact writesO_or_eq_o_of_o_ne ht ho
  · rw [← State.setPc_sp s (s.pc + 1)] at hsp
    exact sp_ne_cases ht hsp

/-- Settles O55: the push leaves SP at the word that the pop takes, and the pop gives SP back its one. -/
theorem pushThenPopRestores : Obligations.PushThenPopRestores := by
  intro b q s hb
  obtain ⟨t, ht, htsp, hpushed⟩ := exec_set_push hb s
  obtain ⟨u, hu, hpopped, husp⟩ := exec_set_reg_pop q t
  have hrestored : u.sp = s.sp := by rw [husp, htsp, BitVec.sub_add_cancel]
  exact ⟨t, u, ht, hu, htsp, hpushed, hpopped.trans hpushed, hrestored⟩

/-- Settles O13, which holds by definition but for the wrap of PC's sum. -/
theorem nextWordReadsThenAdvances : Obligations.NextWordReadsThenAdvances := fun s =>
  ⟨rfl, BitVec.toNat_add s.pc 1, rfl, rfl, rfl, rfl, rfl,
    fun _ hx => resolve_state_of_extraWords_eq_one hx s⟩

/-- Settles O51: the step's definition, with the fetch written out. -/
theorem stepRunsTheDecodedInstruction : Obligations.StepRunsTheDecodedInstruction := by
  rintro s i rfl
  rfl

/-! ## The rows of the operand code table -/

/-- Settles O14. -/
theorem registerDirectResolves : Obligations.RegisterDirectResolves := by
  intro i s
  rw [Operand.ofCode_reg]
  exact ⟨rfl, rfl⟩

/-- Settles O15. -/
theorem registerIndirectResolves : Obligations.RegisterIndirectResolves := by
  intro i s
  rw [Operand.ofCode_regInd]
  rfl

/-- Settles O16: the sum of two words is their exact sum modulo 65536. -/
theorem indexedResolves : Obligations.IndexedResolves := by
  intro i s addr
  have haddr : s.readReg (.ofNum i) + s.readMem s.pc = addr := by
    apply BitVec.eq_of_toNat_eq
    simp [addr]
  rw [Operand.ofCode_regIdx, ← haddr]
  rfl

/-- Settles O17: POP's row, and its place in each form that resolves it. -/
theorem popResolves : Obligations.PopResolves := by
  refine ⟨fun _ => rfl, fun _ _ => ⟨rfl, rfl⟩, fun b s => exec_set .pop b s, fun s => ⟨?_, ?_, ?_⟩⟩
  · exact fun _ h => skip_of_nonBasic h
  · exact fun _ _ h => skip_of_basic h
  · exact fun _ _ h => skip_of_basic h

/-- Settles O18. -/
theorem peekResolves : Obligations.PeekResolves := fun _ => rfl

/-- Settles O19. -/
theorem pushResolves : Obligations.PushResolves := fun _ => rfl

/-- Settles O20: operand b reads the SP that operand a's resolution left. -/
theorem spAndOResolve : Obligations.SpAndOResolve :=
  ⟨fun _ => rfl, fun _ => ⟨rfl, rfl⟩, fun _ => rfl⟩

/-- Settles O21: operand b reads the PC that operand a's resolution left. -/
theorem pcOperandValue : Obligations.PcOperandValue := by
  intro x s
  refine ⟨rfl, rfl, ?_⟩
  have hpc : (resolve2 x .pc (nextWord s).2).bv = s.pc + 1 + BitVec.ofNat 16 x.extraWords :=
    resolve_pc x (nextWord s).2
  rw [hpc]
  simp

/-- Settles O22. -/
theorem nextWordIndirectResolves : Obligations.NextWordIndirectResolves := fun _ => rfl

/-- Settles O23. -/
theorem nextWordLiteralResolves : Obligations.NextWordLiteralResolves := fun _ => ⟨rfl, rfl⟩

/-- Settles O24: the low five bits of a code from 0x20 on are the code less 0x20. -/
theorem shortLiteralResolves : Obligations.ShortLiteralResolves := by
  intro c s hc
  have hlt := c.isLt
  have hvalue : (c.extractLsb' 0 5).setWidth 16 = BitVec.ofNat 16 (c.toNat - 0x20) := by
    apply BitVec.eq_of_toNat_eq
    simp only [BitVec.toNat_setWidth, BitVec.extractLsb'_toNat, Nat.shiftRight_zero,
      BitVec.toNat_ofNat]
    omega
  rw [Operand.ofCode_of_le c hc, ← hvalue]
  exact ⟨rfl, rfl⟩

/-- Settles O26. -/
theorem operandAIsResolvedBeforeB : Obligations.OperandAIsResolvedBeforeB := fun _ _ _ =>
  ⟨rfl, rfl, rfl, rfl⟩

end Sys2Proof.Proofs
end

section
/-! SUPPORT. The results that the arithmetic instructions write, in arithmetic of exact numbers, and how
result and O together give the exact sum and quotient (41_set_arith.md R101 to R105). -/

namespace Sys2Proof.Machine

theorem toNat_addResult (av bv : Word) :
    (addResult av bv).toNat = (av.toNat + bv.toNat) % 65536 :=
  BitVec.toNat_ofNat _ _

/-- O is the carry: the bit of weight 65536 of the exact sum. -/
theorem toNat_addResult_add_addOverflow (av bv : Word) :
    (addResult av bv).toNat + 65536 * (addOverflow av bv).toNat = av.toNat + bv.toNat := by
  have hav := av.isLt
  have hbv := bv.isLt
  rw [toNat_addResult]
  by_cases hcarry : av.toNat + bv.toNat > 65535
  · have ho : (addOverflow av bv).toNat = 1 := by simp [addOverflow, hcarry]
    omega
  · have ho : (addOverflow av bv).toNat = 0 := by simp [addOverflow, hcarry]
    omega

theorem toNat_subResult (av bv : Word) :
    ((subResult av bv).toNat : Int) = ((av.toNat : Int) - bv.toNat) % 65536 := by
  have hnonneg : 0 ≤ difference av bv % 65536 := Int.emod_nonneg _ (by decide)
  rw [subResult, BitVec.toNat_ofInt]
  exact Int.toNat_of_nonneg hnonneg

theorem toNat_mulResult (av bv : Word) :
    (mulResult av bv).toNat = av.toNat * bv.toNat % 65536 :=
  BitVec.toNat_ofNat _ _

/-- A quotient fits the word: no reduction modulo 65536 is left. A zero divisor is included, since the
division of `Nat` by 0 is 0 as well. -/
theorem toNat_divResult (av bv : Word) : (divResult av bv).toNat = av.toNat / bv.toNat := by
  unfold divResult
  split
  · next hzero => simp [hzero]
  · exact Nat.mod_eq_of_lt ((Nat.div_le_self _ _).trans_lt av.isLt)

/-- The quotient and O are the high and low word of the quotient in 16.16 fixed point. -/
theorem toNat_divResult_mul_add_divOverflow {av bv : Word} (h : bv ≠ 0) :
    (divResult av bv).toNat * 65536 + (divOverflow av bv).toNat = av.toNat * 65536 / bv.toNat := by
  have hhigh : av.toNat / bv.toNat = av.toNat * 65536 / bv.toNat / 65536 := by
    rw [Nat.div_div_eq_div_mul, Nat.mul_div_mul_right _ _ (by decide)]
  rw [toNat_divResult, toNat_divOverflow, if_neg h, hhigh]
  exact Nat.div_add_mod' _ _

theorem toNat_modResult {av bv : Word} (h : bv ≠ 0) :
    (modResult av bv).toNat = av.toNat % bv.toNat := by
  rw [modResult, if_neg h]
  exact Nat.mod_eq_of_lt ((Nat.mod_le _ _).trans_lt av.isLt)

end Sys2Proof.Machine
end

section
/-! PROOFS. The statements about SET and the arithmetic instructions (41_set_arith.md). -/

namespace Sys2Proof.Proofs

open Sys2Proof.Machine

/-- Settles O31, from the value of each of the two words written. -/
theorem subCompletes : Obligations.SubCompletes := fun _ _ _ =>
  ⟨_, _, rfl, toNat_subResult _ _, subOverflow_eq _ _⟩

/-- Settles O32, from the value of each of the two words written. -/
theorem mulCompletes : Obligations.MulCompletes := fun _ _ _ =>
  ⟨_, _, rfl, toNat_mulResult _ _, toNat_mulOverflow _ _⟩

/-- Settles O33: a zero divisor gives 0 by definition, any other one the two words of the quotient in
16.16 fixed point. -/
theorem divCompletes : Obligations.DivCompletes := by
  intro a b s r
  refine ⟨divResult r.av r.bv, divOverflow r.av r.bv, rfl, ?_⟩
  split
  · next hzero => exact ⟨if_pos hzero, if_pos hzero⟩
  · next hne => exact ⟨toNat_divResult _ _, toNat_divResult_mul_add_divOverflow hne⟩

/-- Settles O29. -/
theorem setCompletes : Obligations.SetCompletes := exec_set

/-- Settles O30: the sum's low word, the carry by definition, and the two together. -/
theorem addCompletes : Obligations.AddCompletes := fun _ _ _ =>
  ⟨_, _, rfl, toNat_addResult _ _, rfl, toNat_addResult_add_addOverflow _ _⟩

/-- Settles O34: a zero divisor gives 0 by definition, any other one the remainder of the division. -/
theorem modCompletes : Obligations.ModCompletes := by
  intro a b s r
  refine ⟨modResult r.av r.bv, rfl, ?_⟩
  split
  · next hzero => exact if_pos hzero
  · next hne =>
    have hpos : 0 < r.bv.toNat := Nat.pos_of_ne_zero fun h => hne (BitVec.eq_of_toNat_eq h)
    rw [toNat_modResult hne]
    exact ⟨Nat.mod_lt _ hpos, Nat.div_add_mod' _ _⟩

end Sys2Proof.Proofs
end

section
/-! SUPPORT. The results and the O of SHL and SHR in closed form, by the size of the count
(42_shift_logic.md R110, R111; D11). -/

namespace Sys2Proof.Machine

/-! ## A shift left, then a shift right -/

theorem mul_two_pow_div_two_pow_of_le {k m : Nat} (h : k ≤ m) (n : Nat) :
    n * 2 ^ k / 2 ^ m = n / 2 ^ (m - k) := by
  rw [← Nat.pow_sub_mul_pow 2 h, Nat.mul_div_mul_right _ _ (Nat.two_pow_pos k)]

theorem mul_two_pow_div_two_pow_of_ge {k m : Nat} (h : m ≤ k) (n : Nat) :
    n * 2 ^ k / 2 ^ m = n * 2 ^ (k - m) := by
  rw [← Nat.shiftLeft_eq, ← Nat.shiftLeft_eq, Nat.shiftLeft_sub n h, Nat.shiftRight_eq_div_pow]

/-! ## Shifting a word by its whole width -/

theorem mul_two_pow_mod_eq_zero {k : Nat} (h : 16 ≤ k) (n : Nat) : n * 2 ^ k % 65536 = 0 :=
  Nat.mod_eq_zero_of_dvd ((pow_dvd_pow 2 h).mul_left n)

theorem toNat_div_two_pow_eq_zero {k : Nat} (h : 16 ≤ k) (w : Word) : w.toNat / 2 ^ k = 0 :=
  Nat.div_eq_of_lt (w.isLt.trans_le (Nat.pow_le_pow_right (by decide) h))

theorem toNat_div_mod (w : Word) (d : Nat) : w.toNat / d % 65536 = w.toNat / d :=
  Nat.mod_eq_of_lt ((Nat.div_le_self _ _).trans_lt w.isLt)

/-! ## SHL -/

theorem toNat_shlResult (av bv : Word) :
    (shlResult av bv).toNat = av.toNat * 2 ^ bv.toNat % 65536 := by
  rw [shlResult, BitVec.toNat_ofNat, Nat.shiftLeft_eq]

theorem shlResult_eq_zero {bv : Word} (h : 16 ≤ bv.toNat) (av : Word) : shlResult av bv = 0 :=
  BitVec.eq_of_toNat_eq ((toNat_shlResult av bv).trans (mul_two_pow_mod_eq_zero h _))

/-- Up to the width, O holds the bits shifted out. -/
theorem toNat_shlOverflow_of_le {bv : Word} (h : bv.toNat ≤ 16) (av : Word) :
    (shlOverflow av bv).toNat = av.toNat / 2 ^ (16 - bv.toNat) := by
  have hshift : av.toNat * 2 ^ bv.toNat / 65536 = av.toNat / 2 ^ (16 - bv.toNat) :=
    mul_two_pow_div_two_pow_of_le h _
  rw [toNat_shlOverflow, hshift, toNat_div_mod]

/-- From the width on, O is the word shifted left by the rest of the count. -/
theorem toNat_shlOverflow_of_ge {bv : Word} (h : 16 ≤ bv.toNat) (av : Word) :
    (shlOverflow av bv).toNat = av.toNat * 2 ^ (bv.toNat - 16) % 65536 := by
  have hshift : av.toNat * 2 ^ bv.toNat / 65536 = av.toNat * 2 ^ (bv.toNat - 16) :=
    mul_two_pow_div_two_pow_of_ge h _
  rw [toNat_shlOverflow, hshift]

theorem shlOverflow_eq_zero {bv : Word} (h : 32 ≤ bv.toNat) (av : Word) :
    shlOverflow av bv = 0 := by
  refine BitVec.eq_of_toNat_eq ((toNat_shlOverflow_of_ge (by omega) av).trans ?_)
  exact mul_two_pow_mod_eq_zero (by omega) _

/-! ## SHR -/

theorem toNat_shrResult (av bv : Word) :
    (shrResult av bv).toNat = av.toNat / 2 ^ bv.toNat := by
  rw [shrResult, BitVec.toNat_ofNat, Nat.shiftRight_eq_div_pow]
  exact toNat_div_mod _ _

theorem shrResult_eq_zero {bv : Word} (h : 16 ≤ bv.toNat) (av : Word) : shrResult av bv = 0 :=
  BitVec.eq_of_toNat_eq ((toNat_shrResult av bv).trans (toNat_div_two_pow_eq_zero h av))

/-- Up to the width, O holds the bits shifted out, left-aligned. -/
theorem toNat_shrOverflow_of_le {bv : Word} (h : bv.toNat ≤ 16) (av : Word) :
    (shrOverflow av bv).toNat = av.toNat * 2 ^ (16 - bv.toNat) % 65536 := by
  have hshift : av.toNat * 65536 / 2 ^ bv.toNat = av.toNat * 2 ^ (16 - bv.toNat) :=
    mul_two_pow_div_two_pow_of_ge h _
  rw [toNat_shrOverflow, hshift]

/-- From the width on, O is the word shifted right by the rest of the count. -/
theorem toNat_shrOverflow_of_ge {bv : Word} (h : 16 ≤ bv.toNat) (av : Word) :
    (shrOverflow av bv).toNat = av.toNat / 2 ^ (bv.toNat - 16) := by
  have hshift : av.toNat * 65536 / 2 ^ bv.toNat = av.toNat / 2 ^ (bv.toNat - 16) :=
    mul_two_pow_div_two_pow_of_le h _
  rw [toNat_shrOverflow, hshift, toNat_div_mod]

theorem shrOverflow_eq_zero {bv : Word} (h : 32 ≤ bv.toNat) (av : Word) :
    shrOverflow av bv = 0 := by
  refine BitVec.eq_of_toNat_eq ((toNat_shrOverflow_of_ge (by omega) av).trans ?_)
  exact toNat_div_two_pow_eq_zero (by omega) av

end Sys2Proof.Machine
end

section
/-! PROOFS. The statements about the shifts and the bitwise instructions (42_shift_logic.md). -/

namespace Sys2Proof.Proofs

open Sys2Proof.Machine

/-- Settles O35, from the closed forms of SHL's result and O on the three ranges of the count. -/
theorem shlCompletes : Obligations.ShlCompletes := by
  intro a b s r
  refine ⟨shlResult r.av r.bv, shlOverflow r.av r.bv, rfl, ?_⟩
  split_ifs with hshort hmid
  · exact ⟨toNat_shlResult _ _, toNat_shlOverflow_of_le (by omega) _⟩
  · exact ⟨shlResult_eq_zero (by omega) _, toNat_shlOverflow_of_ge (by omega) _⟩
  · exact ⟨shlResult_eq_zero (by omega) _, shlOverflow_eq_zero (by omega) _⟩

/-- Settles O36, from the closed forms of SHR's result and O on the three ranges of the count. -/
theorem shrCompletes : Obligations.ShrCompletes := by
  intro a b s r
  refine ⟨shrResult r.av r.bv, shrOverflow r.av r.bv, rfl, ?_⟩
  split_ifs with hshort hmid
  · exact ⟨toNat_shrResult _ _, toNat_shrOverflow_of_le (by omega) _⟩
  · exact ⟨shrResult_eq_zero (by omega) _, toNat_shrOverflow_of_ge (by omega) _⟩
  · exact ⟨shrResult_eq_zero (by omega) _, shrOverflow_eq_zero (by omega) _⟩

/-- Settles O37: the words written are the bit vectors' own and, or and exclusive or. -/
theorem bitwiseInstructionsComplete : Obligations.BitwiseInstructionsComplete := fun _ _ _ =>
  ⟨⟨_, rfl, fun _ _ => BitVec.getLsbD_and⟩, ⟨_, rfl, fun _ _ => BitVec.getLsbD_or⟩,
    ⟨_, rfl, fun _ _ => BitVec.getLsbD_xor⟩⟩

end Sys2Proof.Proofs
end

section
/-! SUPPORT. The bit that IFB looks for, how far a skip moves PC, and what the skip and the conditionals
leave of SP (43_conditional_skip.md). -/

namespace Sys2Proof.Machine

open Sys2Proof.Safety

/-! ## The tests -/

theorem testBits_iff (av bv : Word) :
    testBits av bv = true ↔ ∃ k < 16, av.getLsbD k = true ∧ bv.getLsbD k = true := by
  have hzero : av &&& bv = 0 ↔ ∀ k < 16, (av &&& bv).getLsbD k = (0 : Word).getLsbD k :=
    ⟨fun h _ _ => by rw [h], BitVec.eq_of_getLsbD_eq⟩
  rw [testBits, bne_iff_ne, ne_eq, hzero]
  simp

/-- A conditional whose test says `p` passes if `p` holds and skips if not. -/
theorem execTest_eq_ite {test : Word → Word → Bool} {a b : Operand} {s : State} {p : Prop} [Decidable p]
    (h : test (resolve2 a b s).av (resolve2 a b s).bv = true ↔ p) :
    execTest test a b s =
      .next (if p then (resolve2 a b s).state else skip (resolve2 a b s).state) :=
  congrArg Host.Outcome.next (if_congr h rfl rfl)

/-! ## The skip -/

/-- A skip moves PC past one whole instruction (43_conditional_skip.md R126, 30_encoding.md R60). -/
theorem skip_pc (s : State) :
    (skip s).pc = s.pc + BitVec.ofNat 16 (wordLength (s.readMem s.pc)) := by
  rw [skip_eq_resolveAll, pc_after_operands]

/-! ## SP -/

theorem resolveAll_sp_of_movesSp_eq_false {xs : List Operand} (h : ∀ x ∈ xs, movesSp x = false)
    (s : State) : (resolveAll xs s).sp = s.sp := by
  by_contra hne
  obtain ⟨x, hx, hmoves⟩ := exists_movesSp_of_resolveAll_sp_ne hne
  exact Bool.false_ne_true ((h x hx).symm.trans hmoves)

theorem skip_sp_of_movesSp_eq_false {s : State}
    (h : ∀ x ∈ (decode (s.readMem s.pc)).operands, movesSp x = false) : (skip s).sp = s.sp := by
  rw [skip_eq_resolveAll]
  exact resolveAll_sp_of_movesSp_eq_false h _

theorem resolve2_sp_of_movesSp_eq_false {a b : Operand} (ha : movesSp a = false)
    (hb : movesSp b = false) (s : State) : (resolve2 a b s).state.sp = s.sp :=
  (resolve_sp_of_movesSp_eq_false hb _).trans (resolve_sp_of_movesSp_eq_false ha s)

/-! ## The conditionals -/

@[simp] theorem resolve2_readMem (a b : Operand) (s : State) (k : Word) :
    (resolve2 a b s).state.readMem k = s.readMem k := by
  simp [State.readMem]

/-- A conditional ends in the state of its two resolutions, or in that state after a skip. -/
theorem eq_or_eq_skip_of_testingOperands {i : Instr} {a b : Operand} {s t : State}
    (hi : testingOperands i = some (a, b)) (ht : exec i s = .next t) :
    t = (resolve2 a b s).state ∨ t = skip (resolve2 a b s).state := by
  have hall : resolveAll i.operands s = (resolve2 a b s).state := by
    cases i <;> cases hi <;> rfl
  rw [exec_of_testingOperands hi, hall, Host.Outcome.next.injEq] at ht
  subst ht
  exact (ite_eq_or_eq _ _ _).symm

end Sys2Proof.Machine
end

section
/-! PROOFS. The statements about the conditionals and the skip (43_conditional_skip.md). -/

namespace Sys2Proof.Proofs

open Sys2Proof.Machine Sys2Proof.Safety

/-- Settles O42: the test holds exactly if some bit is 1 in both values. -/
theorem ifbCompletes : Obligations.IfbCompletes := by
  refine fun a b s => ⟨fun hcommon => ?_, fun hapart => ?_⟩
  · exact congrArg Host.Outcome.next (if_pos ((testBits_iff _ _).2 hcommon))
  · refine congrArg Host.Outcome.next (if_neg fun htest => ?_)
    obtain ⟨k, hk, hav, hbv⟩ := (testBits_iff _ _).1 htest
    simpa [hav, hbv] using hapart k hk

/-- Settles O43: neither a resolution nor a skip writes a register, O or a cell, and SP moves only with
an operand that moves it. -/
theorem conditionalsFrame : Obligations.ConditionalsFrame := by
  intro i a b s t hi ht
  rcases eq_or_eq_skip_of_testingOperands hi ht with rfl | rfl
  · exact ⟨resolve2_regs a b s, resolve2_o a b s, resolve2_readMem a b s,
      fun ha hb _ => resolve2_sp_of_movesSp_eq_false ha hb s⟩
  · refine ⟨by simp, by simp, fun k => by simp [State.readMem], fun ha hb hnext => ?_⟩
    rw [← resolve2_readMem a b s] at hnext
    exact (skip_sp_of_movesSp_eq_false hnext).trans (resolve2_sp_of_movesSp_eq_false ha hb s)

/-- Settles O45: PC's move is the length of the decoded instruction, whose operands are the ones resolved. -/
theorem skipConsumesExactlyOneInstruction : Obligations.SkipConsumesExactlyOneInstruction := by
  intro s
  refine ⟨?_, skip_eq_resolveAll s⟩
  rw [skip_pc, BitVec.toNat_add, BitVec.toNat_ofNat, Nat.add_mod_mod]

/-- Settles O39. -/
theorem ifeCompletes : Obligations.IfeCompletes := fun _ _ _ =>
  execTest_eq_ite beq_iff_eq

/-- Settles O40. -/
theorem ifnCompletes : Obligations.IfnCompletes := by
  intro a b s r
  rw [← ite_not]
  exact execTest_eq_ite bne_iff_ne

/-- Settles O41. -/
theorem ifgCompletes : Obligations.IfgCompletes := fun _ _ _ =>
  execTest_eq_ite decide_eq_true_iff

/-- Settles O44, from the skip of each of the two formats and its frame. -/
theorem skipResolvesAndDispatchesNothing : Obligations.SkipResolvesAndDispatchesNothing := fun s =>
  ⟨fun _ _ _ => skip_of_basic, fun _ _ => skip_of_nonBasic, skip_regs s, skip_o s, skip_mem s⟩

end Sys2Proof.Proofs
end

section
/-! SUPPORT. What JSR, a return through `SET PC, POP` and an unrecognized instruction answer, and which
words decode to the last (44_jsr_nonbasic.md). -/

namespace Sys2Proof

theorem unrecognizedWord_iff (w : Word) :
    unrecognizedWord w = true ↔ w.extractLsb' 0 4 = 0 ∧ w.extractLsb' 4 6 ≠ 0x01 := by
  rw [unrecognizedWord, Bool.and_eq_true, beq_iff_eq, bne_iff_ne]

theorem decode_of_unrecognizedWord {w : Word} (h : unrecognizedWord w = true) :
    decode w = .unrecognized (w.extractLsb' 4 6) (.ofCode (w.extractLsb' 10 6)) := by
  obtain ⟨hlow, hn⟩ := (unrecognizedWord_iff w).1 h
  rw [decode, fieldsOf_of_lowBits_eq_zero hlow, instrOf, nonBasicInstr, if_neg hn]

end Sys2Proof

namespace Sys2Proof.Machine

theorem exec_jsr (a : Operand) (s : State) :
    exec (.jsr a) s =
      .next ((pushWord (resolve a s).state.pc (resolve a s).state).setPc (resolve a s).value) :=
  rfl

/-- A push leaves SP at the word it wrote. -/
theorem readMem_pushWord_sp (v : Word) (s : State) :
    (pushWord v s).readMem (pushWord v s).sp = v := by
  rw [readMem_pushWord, pushWord_sp, if_pos rfl]

/-- `SET PC, POP` goes to the address on top of the stack (44_jsr_nonbasic.md R131). -/
theorem exec_set_pc_pop (s : State) :
    ∃ t, exec (.set .pc .pop) s = .next t ∧ t.pc = s.readMem s.sp ∧ t.sp = s.sp + 1 :=
  ⟨_, exec_set .pc .pop s, rfl, rfl⟩

theorem exec_unrecognized (n : BitVec 6) (a : Operand) (s : State) :
    exec (.unrecognized n a) s =
      .fault (.decodeFault (encode (.unrecognized n a)) (resolve a s).state) :=
  rfl

end Sys2Proof.Machine
end

section
/-! PROOFS. The statements about JSR and the unrecognized words (44_jsr_nonbasic.md). -/

namespace Sys2Proof.Proofs

open Sys2Proof.Machine

/-- Settles O46: the push and the jump by the rules for the push, and the frame from what an instruction
that writes no result leaves unchanged. -/
theorem jsrCompletes : Obligations.JsrCompletes := by
  intro a s r
  have ht := exec_jsr a s
  obtain ⟨hregs, ho⟩ := regs_o_of_writingOperands_eq_none ht rfl
  exact ⟨_, ht, rfl, rfl, rfl, readMem_pushWord_sp r.state.pc r.state, hregs, ho,
    fun _ hk => readMem_of_storeAddr_ne ht hk⟩

/-- Settles O48: the word decodes to an unrecognized instruction, whose own word it is. -/
theorem faultingStepIsPrecise : Obligations.FaultingStepIsPrecise := by
  intro s h
  have hdecode := decode_of_unrecognizedWord h
  calc step s = exec (decode (s.readMem s.pc)) (nextWord s).2 := rfl
    _ = .fault (.decodeFault (encode (decode (s.readMem s.pc)))
          (resolve (.ofCode ((s.readMem s.pc).extractLsb' 10 6)) (nextWord s).2).state) := by
      rw [hdecode, exec_unrecognized]
    _ = _ := by rw [encode_decode]

/-- Settles O56: the return pops the word that JSR pushed, since SP and memory are as JSR left them. -/
theorem returnGoesBackPastTheCall : Obligations.ReturnGoesBackPastTheCall := by
  intro a s t u ht husp humem
  obtain ⟨t', ht', -, hsp, -, hpushed, -⟩ := jsrCompletes a s
  cases ht.symm.trans ht'
  obtain ⟨v, hv, hpc, hvsp⟩ := exec_set_pc_pop u
  have htop : u.readMem u.sp = t.readMem t.sp := by rw [State.readMem, humem, husp, State.readMem]
  refine ⟨v, hv, hpc.trans (htop.trans hpushed), ?_⟩
  rw [hvsp, husp, hsp, BitVec.sub_add_cancel]

/-- Settles O47: the answer by definition, and the frame of a resolution. -/
theorem unrecognizedWordStopsWithDecodeFault : Obligations.UnrecognizedWordStopsWithDecodeFault :=
  fun n a s => ⟨exec_unrecognized n a s, resolve_regs a s, resolve_o a s, resolve_mem a s⟩

end Sys2Proof.Proofs
end

section
/-! SUPPORT. Which of its outcomes a step has, by the word at PC, and what follows for a run under each
policy (60_exceptions.md R140, R143, R145, R147). -/

namespace Sys2Proof

theorem unrecognizedWord_of_decode {w : Word} {n : BitVec 6} {a : Operand}
    (h : decode w = .unrecognized n a) : unrecognizedWord w = true := by
  have hwf : (Instr.unrecognized n a).wf = true := h ▸ wf_decode w
  have hfields : fieldsOf w = .nonBasic n a.code := by
    rw [← encode_decode w, h]
    exact fieldsOf_wordOf rfl
  rw [unrecognizedWord_iff]
  by_cases hlow : w.extractLsb' 0 4 = 0
  · rw [fieldsOf_of_lowBits_eq_zero hlow, Fields.nonBasic.injEq] at hfields
    exact ⟨hlow, hfields.1 ▸ bne_iff_ne.1 hwf⟩
  · cases (fieldsOf_of_lowBits_ne_zero hlow).symm.trans hfields

end Sys2Proof

namespace Sys2Proof.Machine

open Sys2Proof.Safety

/-! ## One step -/

theorem exec_eq_next_or_eq_unrecognized (i : Instr) (s : State) :
    (∃ t, exec i s = .next t) ∨ ∃ n a, i = .unrecognized n a := by
  rcases writing_or_testing_or_nonBasic i with ⟨a, b, h⟩ | ⟨a, b, h⟩ | ⟨a, rfl⟩ | hunrecognized
  · obtain ⟨v, o, -, hexec, -⟩ := exec_of_writingOperands h s
    exact .inl ⟨_, hexec⟩
  · exact .inl ⟨_, exec_of_testingOperands h s⟩
  · exact .inl ⟨_, exec_jsr a s⟩
  · exact .inr hunrecognized

theorem step_eq_next_of_unrecognizedWord_eq_false {s : State}
    (h : unrecognizedWord (s.readMem s.pc) = false) : ∃ t, step s = .next t := by
  rcases exec_eq_next_or_eq_unrecognized (decode (s.readMem s.pc)) (nextWord s).2 with
    hnext | ⟨n, a, hdecode⟩
  · exact hnext
  · exact absurd (h.symm.trans (unrecognizedWord_of_decode hdecode)) Bool.false_ne_true

theorem step_eq_next_or_eq_decodeFault (s : State) :
    (∃ t, step s = .next t) ∨ ∃ w t, step s = .fault (.decodeFault w t) := by
  cases hw : unrecognizedWord (s.readMem s.pc) with
  | false => exact .inl (step_eq_next_of_unrecognizedWord_eq_false hw)
  | true => exact .inr ⟨_, _, Proofs.faultingStepIsPrecise s hw⟩

/-! ## A run after a fault -/

theorem runMoves_halt_decodeFault {s t : State} {w : Word} (rest : List HostMove)
    (h : step s = .fault (.decodeFault w t)) :
    runMoves .halt (.step :: rest) s = .finishedWithFault w t :=
  runMoves_fault .halt rest s _ h

theorem runMoves_resume_decodeFault {s t : State} {w : Word} (rest : List HostMove)
    (h : step s = .fault (.decodeFault w t)) :
    runMoves .resume (.step :: rest) s = runMoves .resume rest t :=
  runMoves_fault .resume rest s _ h

/-! ## A whole run -/

/-- A caller that continues is stopped by no fault (70_reset_and_hazards.md R166). -/
theorem runMoves_resume_eq_stoppedByHost (moves : List HostMove) (s : State) :
    ∃ t, runMoves .resume moves s = .stoppedByHost t := by
  induction moves generalizing s with
  | nil => exact ⟨s, rfl⟩
  | cons move rest ih =>
    cases move with
    | write addr v => exact ih (hostWrite s addr v)
    | step =>
      rcases step_eq_next_or_eq_decodeFault s with ⟨t, h⟩ | ⟨w, t, h⟩
      · rw [runMoves_next _ _ _ _ h]
        exact ih t
      · rw [runMoves_resume_decodeFault _ h]
        exact ih t

/-- The policies part only where a fault ends the run under `halt`. -/
theorem runMoves_halt_eq_resume_or_eq_finishedWithFault (moves : List HostMove) (s : State) :
    runMoves .halt moves s = runMoves .resume moves s ∨
      ∃ w t, runMoves .halt moves s = .finishedWithFault w t := by
  induction moves generalizing s with
  | nil => exact .inl rfl
  | cons move rest ih =>
    cases move with
    | write addr v => exact ih (hostWrite s addr v)
    | step =>
      rcases step_eq_next_or_eq_decodeFault s with ⟨t, h⟩ | ⟨w, t, h⟩
      · rw [runMoves_next _ _ _ _ h, runMoves_next _ _ _ _ h]
        exact ih t
      · exact .inr ⟨w, t, runMoves_halt_decodeFault rest h⟩

/-! ## A free run without a fault -/

theorem noFaultReported_succ_iff (k : Nat) (s : State) :
    noFaultReported (k + 1) s = true ↔ ∃ t, step s = .next t ∧ noFaultReported k t = true := by
  rw [noFaultReported]
  cases step s <;> simp

/-- Where no fault is reported the policy does not matter. -/
theorem runUnder_eq_stoppedByHost {k : Nat} {s : State} (h : noFaultReported k s = true) :
    ∃ t, ∀ p, runUnder p k s = .stoppedByHost t := by
  induction k generalizing s with
  | zero => exact ⟨s, fun _ => rfl⟩
  | succ k ih =>
    obtain ⟨s', hstep, hrest⟩ := (noFaultReported_succ_iff k s).1 h
    obtain ⟨t, ht⟩ := ih hrest
    exact ⟨t, fun p => (runMoves_next p _ s s' hstep).trans (ht p)⟩

end Sys2Proof.Machine
end

section
/-! PROOFS. The statements about the decode fault and the caller's policies (60_exceptions.md). -/

namespace Sys2Proof.Proofs

open Sys2Proof.Machine

/-- Settles O49: an unrecognized word at PC gives the fault of O48, every other word a next state, and
each outcome excludes the others. -/
theorem onlyUnrecognizedWordsFault : Obligations.OnlyUnrecognizedWordsFault := by
  intro s
  cases hw : unrecognizedWord (s.readMem s.pc) with
  | false =>
    obtain ⟨t, ht⟩ := step_eq_next_of_unrecognizedWord_eq_false hw
    simp [ht]
  | true => simp [faultingStepIsPrecise s hw]

/-- Settles O50, from one step under each policy and the runs by induction on the moves. -/
theorem callerHaltsOrGoesOnAfterFault : Obligations.CallerHaltsOrGoesOnAfterFault := by
  refine ⟨fun s t w rest h => ?_, fun moves s => ?_, fun s k h => ?_⟩
  · exact ⟨runMoves_halt_decodeFault rest h, runMoves_resume_decodeFault rest h⟩
  · exact ⟨runMoves_resume_eq_stoppedByHost moves s,
      runMoves_halt_eq_resume_or_eq_finishedWithFault moves s⟩
  · obtain ⟨t, ht⟩ := runUnder_eq_stoppedByHost h
    exact ⟨t, ht .halt, ht .resume⟩

end Sys2Proof.Proofs
end

section
/-! SUPPORT. The memory an image leaves, what runs of the host's moves and their results are made of, and
where ADD PC lands (70_reset_and_hazards.md). -/

namespace Sys2Proof.Machine

/-! ## The image -/

/-- A loaded cell holds the last word the image gives for it, any other cell what it held. -/
theorem readMem_loadImage (image : Config.Image) (s : State) (k : Word) :
    (loadImage image s).readMem k = (image.reverse.lookup k).getD (s.readMem k) := by
  induction image generalizing s with
  | nil => rfl
  | cons cell rest ih =>
    have hcell : (hostWrite s cell.1 cell.2).readMem k =
        ([cell].lookup k).getD (s.readMem k) := by
      rw [hostWrite, State.readMem_writeMem]
      by_cases h : cell.1 = k
      · simp [List.lookup, h]
      · simp [List.lookup, h, beq_false_of_ne (Ne.symm h)]
    rw [loadImage, ih, hcell, List.reverse_cons, List.lookup_append, Option.getD_or]

theorem wf_reset : State.reset.wf :=
  ⟨List.Pairwise.nil, nofun⟩

theorem start_pc (image : Config.Image) : (start image).pc = 0 :=
  loadImage_pc image State.reset

/-! ## One move -/

/-- A host write at PC is the word the next step executes (20_memory.md R42). -/
theorem step_hostWrite_pc (s : State) (v : Word) :
    step (hostWrite s s.pc v) = exec (decode v) ((hostWrite s s.pc v).setPc (s.pc + 1)) :=
  (fetchesWord_of_mem_eq_write rfl rfl).1

@[simp] theorem resultsRead_write (p : Config.OnFault) (addr v : Word) (rest : List HostMove)
    (s : State) :
    resultsRead p (.write addr v :: rest) s = resultsRead p rest (hostWrite s addr v) := rfl

theorem resultsRead_next {p : Config.OnFault} {s t : State} (rest : List HostMove)
    (h : step s = .next t) : resultsRead p (.step :: rest) s = .ok :: resultsRead p rest t := by
  simp [resultsRead, h]

theorem resultsRead_halt_decodeFault {s t : State} {w : Word} (rest : List HostMove)
    (h : step s = .fault (.decodeFault w t)) :
    resultsRead .halt (.step :: rest) s = [.fault w] := by
  simp [resultsRead, h]

theorem resultsRead_resume_decodeFault {s t : State} {w : Word} (rest : List HostMove)
    (h : step s = .fault (.decodeFault w t)) :
    resultsRead .resume (.step :: rest) s = .fault w :: resultsRead .resume rest t := by
  simp [resultsRead, h]

/-! ## A whole run -/

/-- Going on from the state the host stopped in; a run that ended otherwise stays ended. -/
def RunEnd.andThen (goOn : State → RunEnd) : RunEnd → RunEnd
  | .stoppedByHost t => goOn t
  | .finishedWithFault w t => .finishedWithFault w t
  | .refused r => .refused r

/-- A run may be cut between any two moves (70_reset_and_hazards.md R165 (3)). -/
theorem runMoves_append (p : Config.OnFault) (first rest : List HostMove) (s : State) :
    runMoves p (first ++ rest) s = (runMoves p first s).andThen (runMoves p rest) := by
  induction first generalizing s with
  | nil => rfl
  | cons move first ih =>
    cases move with
    | write addr v => exact ih (hostWrite s addr v)
    | step =>
      rw [List.cons_append]
      rcases step_eq_next_or_eq_decodeFault s with ⟨t, h⟩ | ⟨w, t, h⟩
      · rw [runMoves_next _ _ _ _ h, runMoves_next _ _ _ _ h, ih]
      · rw [runMoves_fault _ _ _ _ h, runMoves_fault _ _ _ _ h]
        cases p with
        | halt => rfl
        | resume => exact ih t

/-- Writes alone are the loading of an image, and the host stops after them. -/
theorem runMoves_map_write (p : Config.OnFault) (image : Config.Image) (s : State) :
    runMoves p (image.map fun cell => .write cell.1 cell.2) s =
      .stoppedByHost (loadImage image s) := by
  simpa using runMoves_image p image [] s

/-- Under `continue` the host reads one result for each call of `step`. -/
theorem length_resultsRead_resume (moves : List HostMove) (s : State) :
    (resultsRead .resume moves s).length = moves.count .step := by
  induction moves generalizing s with
  | nil => rfl
  | cons move rest ih =>
    cases move with
    | write addr v => simp [ih]
    | step =>
      rcases step_eq_next_or_eq_decodeFault s with ⟨t, h⟩ | ⟨w, t, h⟩
      · simp [resultsRead_next rest h, ih]
      · simp [resultsRead_resume_decodeFault rest h, ih]

/-- Under `halt` the one fault is the last result (70_reset_and_hazards.md R166). -/
theorem resultsRead_halt_of_finishedWithFault {moves : List HostMove} {s t : State} {w : Word}
    (hrun : runMoves .halt moves s = .finishedWithFault w t) :
    ∃ n, resultsRead .halt moves s = List.replicate n .ok ++ [.fault w] := by
  induction moves generalizing s with
  | nil => cases hrun
  | cons move rest ih =>
    cases move with
    | write addr v => exact ih hrun
    | step =>
      rcases step_eq_next_or_eq_decodeFault s with ⟨s', h⟩ | ⟨w', s', h⟩
      · rw [runMoves_next _ _ _ _ h] at hrun
        obtain ⟨n, hn⟩ := ih hrun
        exact ⟨n + 1, by rw [resultsRead_next rest h, hn]; rfl⟩
      · rw [runMoves_halt_decodeFault rest h] at hrun
        cases hrun
        exact ⟨0, resultsRead_halt_decodeFault rest h⟩

/-! ## A jump relative to PC -/

theorem addResult_eq_add (av bv : Word) : addResult av bv = av + bv :=
  rfl

/-- The PC that ADD adds to is the one before the literal's word is consumed (D10). -/
theorem exec_add_pc_nextLit (s : State) :
    ∃ t, exec (.add .pc .nextLit) s = .next t ∧ t.pc = s.pc + s.readMem s.pc :=
  ⟨_, rfl, addResult_eq_add s.pc (s.readMem s.pc)⟩

end Sys2Proof.Machine
end

section
/-! PROOFS. The statements about reset, the image, the host's moves and ADD PC
(70_reset_and_hazards.md). -/

namespace Sys2Proof.Proofs

open Sys2Proof.Machine

/-- Settles O12: memory by induction on the image, and what loading leaves of the reset state. -/
theorem imageIsLaidOverZeroedMemory : Obligations.ImageIsLaidOverZeroedMemory := fun image =>
  ⟨readMem_loadImage image State.reset, loadImage_regs image _, loadImage_o image _,
    loadImage_sp image _, start_pc image, loadImage_wf image _ wf_reset⟩

/-- Settles O60: the two cuts from the run of appended moves, the writes as the loading of an image, and
the results by induction on the moves. -/
theorem hostActsBetweenSteps : Obligations.HostActsBetweenSteps := by
  refine ⟨fun p first rest s t h => ?_, fun p first rest s t w h => ?_, fun p image s => ?_,
    fun p v rest s t h => ?_, length_resultsRead_resume,
    fun _ _ _ _ => resultsRead_halt_of_finishedWithFault⟩
  · rw [runMoves_append, h, RunEnd.andThen]
  · rw [runMoves_append, h, RunEnd.andThen]
  · exact ⟨loadImage image s, runMoves_map_write p image s, loadImage_regs image s,
      loadImage_o image s, loadImage_pc image s, loadImage_sp image s, readMem_loadImage image s⟩
  · rw [runMoves_write, runMoves_next p rest _ t ((step_hostWrite_pc s v).trans h)]

/-- Settles O9: loading leaves PC at 0, and the fetch reads at PC. -/
theorem firstFetchIsFromAddressZero : Obligations.FirstFetchIsFromAddressZero := fun image =>
  ⟨start_pc image, by rw [nextWord_value, start_pc]⟩

/-- Settles O57: the step runs the ADD with PC one past the instruction word. -/
theorem addToPcCountsFromTheNextWord : Obligations.AddToPcCountsFromTheNextWord := by
  intro s hdecode
  rw [stepRunsTheDecodedInstruction s _ hdecode]
  exact exec_add_pc_nextLit (s.setPc (s.pc + 1))

end Sys2Proof.Proofs
end

section
/-! SUPPORT. What executing one instruction, completed or faulting, does to the canonical form of memory
(10_state.md section 8; log 26, log 27). -/

namespace Sys2Proof.Machine

/-- A completed instruction leaves memory as it is or writes one word of it. -/
theorem exec_mem_eq_or_eq_write {i : Instr} {s t : State} (ht : exec i s = .next t) :
    t.mem = s.mem ∨ ∃ k v : Word, t.mem = s.mem.write k.toNat v := by
  cases hk : storeAddr i s with
  | none => exact .inl (exec_mem_of_storeAddr_eq_none hk ht)
  | some k =>
    obtain ⟨t', v, ht', -, hmem⟩ := exec_store i s k hk
    cases ht.symm.trans ht'
    exact .inr ⟨k, v, hmem⟩

/-- A faulting instruction has only resolved its operand, and that writes no memory (D8). -/
theorem after_mem_of_exec_eq_fault {i : Instr} {s : State} {f : Fault} (hf : exec i s = .fault f) :
    f.after.mem = s.mem := by
  obtain ⟨n, a, rfl⟩ := eq_unrecognized_of_exec_eq_fault hf
  cases (exec_unrecognized n a s).symm.trans hf
  exact resolve_mem a s

theorem wf_of_exec_eq_next {i : Instr} {s t : State} (h : s.wf) (ht : exec i s = .next t) : t.wf := by
  unfold State.wf
  rcases exec_mem_eq_or_eq_write ht with hmem | ⟨k, v, hmem⟩
  · rwa [hmem]
  · rw [hmem]
    exact Memory.wf_write s.mem k.toNat v k.isLt h

theorem wf_after_of_exec_eq_fault {i : Instr} {s : State} {f : Fault} (h : s.wf)
    (hf : exec i s = .fault f) : f.after.wf := by
  unfold State.wf
  rwa [after_mem_of_exec_eq_fault hf]

end Sys2Proof.Machine
end

section
/-! PROOFS. The statements about the canonical form of memory (10_state.md section 8, 20_memory.md
section 1). -/

namespace Sys2Proof.Proofs

open Sys2Proof.Machine

/-- Settles O11: the fetch writes no memory, and executing the decoded instruction writes at most one
word of it. -/
theorem stepKeepsMemoryCanonical : Obligations.StepKeepsMemoryCanonical := by
  intro s h
  have hfetched : (nextWord s).2.wf := h
  exact ⟨fun _ => wf_of_exec_eq_next hfetched, fun _ => wf_after_of_exec_eq_fault hfetched⟩

/-- Settles O10: the memory at reset lists no cell. -/
theorem resetMemoryIsCanonical : Obligations.ResetMemoryIsCanonical :=
  wf_reset

end Sys2Proof.Proofs
end
